-- ==== Sys2Proof/Word.lean ====
section
/-! DEFINITION. The word types of the block (spec/00_scope.md R9, R12; spec/30_encoding.md R80, R83): bytes of the
framebuffer RAM, the 64-bit command word, the 16-bit colour16 and response, and the internal rgb444 triple. -/

namespace Sys2Proof

/-- One byte of the framebuffer RAM (R51). -/
abbrev Byte := BitVec 8

/-- One command word on the command port (R80, R81). -/
abbrev CommandWord := BitVec 64

/-- The external 5/6/5 colour (R83). -/
abbrev Colour16 := BitVec 16

/-- One value on the response port (R80, R85). -/
abbrev Response := BitVec 16

/-- The six colour-line bits, bit 0 R1, 1 G1, 2 B1, 3 R2, 4 G2, 5 B2 (R87). -/
abbrev ColourLines := BitVec 6

/-- Index of a bit plane; plane `p` has weight `2^p` (R12). -/
abbrev Plane := Fin 4

/-- Index of a buffer region (R22, R50). -/
abbrev Region := Fin 2

/-- The three channels of a pixel. -/
inductive Channel where
  | R | G | B
  deriving DecidableEq, Repr

/-- The internal colour, four bits a channel (R12, R83). -/
structure Rgb444 where
  r : BitVec 4
  g : BitVec 4
  b : BitVec 4
  deriving DecidableEq, Repr

/-- One channel of an rgb444 triple. -/
def Rgb444.get (c : Rgb444) : Channel → BitVec 4
  | .R => c.r
  | .G => c.g
  | .B => c.b

end Sys2Proof
end

