-- ==== Sys2Proof/Config.lean ====
section
/-! DEFINITION. The parameters of one instance (spec/00_scope.md R7), what is computed from them, and the model's free
values. A parameter is open in the spec, so every claim quantifies over the record `Config`; State carries the record of
its instance and no step changes it (notes/assumptions/1.md). -/

namespace Sys2Proof

/-- The parameters of an instance, "fixed at instantiation and never changed afterwards" (R7).
`NPLANES` is 4 for every instance and has no field. -/
structure Config where
  /-- `WIDTH`: panel width in pixels, and bytes per stride. -/
  width : Nat
  /-- `NROWS`: physical scan rows. -/
  nrows : Nat
  /-- `DBUF`: double-buffered or not. -/
  dbuf : Bool
  /-- `BASE_DURATION`: timer interval of plane 0. -/
  baseDuration : Nat
  /-- `GAMMA4`: the gamma table, entry `i` at index `i` (R115). -/
  gamma : Vector (BitVec 4) 256
  /-- `RAM_BYTES`: bytes of RAM the instance was given. -/
  ramBytes : Nat
  deriving DecidableEq, Repr

/-- `HEIGHT = 2 * NROWS` (R7). -/
def Config.height (c : Config) : Nat := 2 * c.nrows

/-- `NBUF`: 2 if `DBUF`, else 1 (R7). -/
def Config.nbuf (c : Config) : Nat := if c.dbuf then 2 else 1

/-- `BUFSZ`: bytes per buffer region (R7). -/
def Config.bufSize (c : Config) : Nat := c.width * c.nrows * 3

/-- The whole RAM: `NBUF * BUFSZ` bytes (R50). -/
def Config.ramSize (c : Config) : Nat := c.nbuf * c.bufSize

/-- Allocation fails exactly when the RAM given is too small (R29, decision D12). -/
def Config.allocFails (c : Config) : Bool := decide (c.ramBytes < c.nbuf * c.bufSize)

/-- The two properties R115 lets a model assume of the table: non-decreasing, and `GAMMA4(255) = 15`. -/
def GammaLegal (g : Vector (BitVec 4) 256) : Prop :=
  (∀ i j : Fin 256, i ≤ j → (g.get i).toNat ≤ (g.get j).toNat) ∧ g.get 255 = 15#4

/-- The legal instances: the constraint column of R7's table. -/
structure Config.Legal (c : Config) : Prop where
  width_pos : 1 ≤ c.width
  width_le : c.width ≤ 32767
  nrows_pos : 1 ≤ c.nrows
  nrows_le : c.nrows ≤ 16383
  bufSize_le : c.bufSize ≤ 2 ^ 24
  base_pos : 1 ≤ c.baseDuration
  gamma_legal : GammaLegal c.gamma

/-! ### Free values (notes/assumptions/3.md and 4.md) -/

/-- FREE VALUE: the numbers behind the gamma table of the instance `State.reset` stands for. R115 leaves the 256
entries open; nothing in Lean can evaluate this constant. -/
opaque Config.gammaSeed : Nat → BitVec 4

/-- FREE VALUE: the level of the shift clock after a `CLKPULSE` (spec/93_implementation_defined.md U9: "any value"),
one fresh value for each pulse; the argument is State's counter `freeCount`. -/
opaque Config.clkAfterPulse : Nat → Bool

/-- The running maximum of a sequence of table values. -/
def runningMax (f : Nat → BitVec 4) : Nat → BitVec 4
  | 0 => f 0
  | n + 1 => if (runningMax f n).toNat ≤ (f (n + 1)).toNat then f (n + 1) else runningMax f n

/-- The legal table a seed stands for: the running maximum of the seed, with the last entry 15. Every legal table is the
table of some seed (`Laws.legalTable_surjective`), so a free seed is a free legal table and nothing more. -/
def legalTable (f : Nat → BitVec 4) : Vector (BitVec 4) 256 :=
  Vector.ofFn fun i => if i.val = 255 then 15#4 else runningMax f i.val

/-- The instance `State.reset` stands for: the one of program P3 of spec/95_test_vectors.md (WIDTH = 4, NROWS = 2,
DBUF true, RAM 48 bytes, BASE_DURATION = 100), with a free gamma table.
DESIGN CHOICE (notes/assumptions/2.md): the spec leaves the parameters open and no claim rests on these numbers. -/
def Config.p3 : Config where
  width := 4
  nrows := 2
  dbuf := true
  baseDuration := 100
  gamma := legalTable Config.gammaSeed
  ramBytes := 48

end Sys2Proof
end

