-- ==== Sys2Proof/Syntax.lean ====
section
/-! DEFINITION. The instructions of the block: the eleven host commands and the tick event, one constructor per row of
spec/opcode_table.json (spec/30_encoding.md R81 to R86). Operands are held as R82 assembles them: coordinates and hue as
the signed integers their fields denote, an offset as a natural number, a colour or channel as its bits. -/

namespace Sys2Proof

/-- The operand `rot`: 0, 90, 180 or 270 degrees (R82). -/
inductive Rotation where
  | r0 | r90 | r180 | r270
  deriving DecidableEq, Repr

/-- One instruction. `tick` is the event on the tick port; every other constructor is a command word. -/
inductive Instr where
  /-- BEGIN (R196). -/
  | beginCmd
  /-- WRPIX x, y, color, rot (R143). -/
  | wrpix (rot : Rotation) (x y : Int) (color : Colour16)
  /-- FILL color (R144). -/
  | fill (color : Colour16)
  /-- SWAP copy (R145). -/
  | swap (copy : Bool)
  /-- LDB off (R147). -/
  | ldb (off : Nat)
  /-- STB off, data (R148). -/
  | stb (off : Nat) (data : Byte)
  /-- QNT color (R111). -/
  | qnt (color : Colour16)
  /-- C333 r, g, b (R113). -/
  | c333 (r g b : BitVec 8)
  /-- C444 r, g, b (R114). -/
  | c444 (r g b : BitVec 8)
  /-- C888 r, g, b, gflag (R116). -/
  | c888 (gflag : Bool) (r g b : BitVec 8)
  /-- CHSV hue, sat, val, gflag (R119). -/
  | chsv (gflag : Bool) (hue : Int) (sat val : BitVec 8)
  /-- TICK: one event on the tick port (R86, R191). -/
  | tick
  deriving DecidableEq, Repr

end Sys2Proof
end

