-- ==== Sys2Proof/Machine/State.lean ====
section
/-! DEFINITION. The state of one instance (spec/10_state.md R20, R31, R34; spec/70_reset_and_hazards.md R251), the reasons
a step can stop, and reset. Everything is plain data. -/

namespace Sys2Proof.Machine

/-- The framebuffer RAM: (linear address, byte) pairs, addresses strictly rising, no byte 0x00 listed. An address that is
not listed reads as 0x00, the contents R250 gives every byte at reset. -/
abbrev Memory := List Host.Cell

/-- The output events, one per call of a GPIO Driver boundary primitive (R87). -/
inductive OutEvent where
  /-- `ADDR(i)`: `setRowAddress(index)`. -/
  | addr (i : Nat)
  /-- `RGB(m)`: `setColorLines(bitmask)`. -/
  | rgb (m : ColourLines)
  /-- `CLKPULSE`: `pulseClock()`. -/
  | clkPulse
  /-- `OE(b)`: `setOutputEnable(bool)`, true = LED drive enabled. -/
  | oe (b : Bool)
  /-- `LAT(b)`: `setLatch(bool)`. -/
  | lat (b : Bool)
  /-- `TIMER(d)`: `scheduleNextInterrupt(duration)`, never truncated. -/
  | timer (d : Nat)
  /-- `CLKLOW`: the shift clock dropped low. -/
  | clkLow
  /-- `IRQREG`: the interrupt-registration hook. -/
  | irqReg
  deriving DecidableEq, Repr

/-- What still waits at the block's two input ports, in the order the environment sends it (R80, R267).
The model's own: notes/assumptions/5.md and 7.md. -/
inductive Input where
  /-- A command word on the command port. -/
  | command (w : CommandWord)
  /-- A tick event, which arrives when the host has done `after` more micro-operations of the command in progress, or at
  the end of that command if it has fewer (R62, R228). -/
  | tick (after : Nat)
  deriving DecidableEq, Repr

/-- One micro-operation of a host command: the unit between which a TICK may fall (R59). -/
inductive Micro where
  /-- `Upd(a, mask, v)`: one byte read-modify-write (R141). -/
  | upd (a : Nat) (mask v : Byte)
  /-- `MemWrite(a, 1, v)`. -/
  | write (a : Nat) (v : Byte)
  /-- `MemWrite(dst, 1, MemRead(src, 1))`: a read and then a write, two micro-operations (R146). -/
  | copy (src dst : Nat)
  deriving DecidableEq, Repr

/-- Where the host agent stands (R31, R61). -/
inductive HostPhase where
  /-- No command is in progress. -/
  | idle
  /-- A tick preempted a command; these micro-operations of it are still to be done. -/
  | busy (rest : List Micro)
  /-- A SWAP waits for `swapPending = 0`; its operand `copy` (R31). -/
  | waiting (copy : Bool)
  deriving DecidableEq, Repr

/-- The state of one instance. -/
structure State where
  /-- The instance's parameters (R7); no step changes them. The model's own placement: notes/assumptions/1.md. -/
  cfg : Config
  /-- Scan row of the data last shifted out (R20, R22). -/
  row : Nat
  /-- Bit plane of the data last shifted out (R20, R22). -/
  plane : Plane
  /-- Index of the region being scanned (R25). -/
  front : Region
  /-- The pending-swap flag (R27). -/
  swapPending : Bool
  /-- The interrupt is armed (R28). -/
  running : Bool
  /-- AllocationError recorded (R29). -/
  errAlloc : Bool
  /-- Last value sent by `setOutputEnable` (R30). -/
  oe : Bool
  /-- Last value sent by `setLatch` (R30). -/
  lat : Bool
  /-- Level of the shift clock line; a free value after a CLKPULSE (R30, U9). -/
  clk : Bool
  /-- Last value sent by `setRowAddress` (R30). -/
  addr : Nat
  /-- Last value sent by `setColorLines` (R30). -/
  rgb : ColourLines
  /-- The framebuffer RAM (R50). -/
  ram : Memory
  /-- The host agent (R31, R251). -/
  host : HostPhase
  /-- What waits at the input ports (R80). The model's own: notes/assumptions/5.md. -/
  inputs : List Input
  /-- The responses given so far, oldest first (R85, R268). -/
  responses : List Response
  /-- The output trace so far, oldest first (R10, R87, R268). -/
  events : List OutEvent
  /-- How many free clock levels have been drawn. The model's own: notes/assumptions/4.md. -/
  freeCount : Nat
  deriving DecidableEq, Repr

/-- The source's three error conditions; "this spec numbers them for a model's use only" (R220). -/
inductive Condition where
  | allocationError | outOfRange | noOpSwap
  deriving DecidableEq, Repr

/-- The reasons a step ends in a fault. -/
inductive Fault where
  /-- Raised by LDB and STB with `off >= BUFSZ`: "a model treats the command as a fault and gives it no value" (R147, R148,
  decision D16). Safe: the hardware makes no RAM access and goes on with an unspecified response. -/
  | rawOffsetOutside
  deriving DecidableEq, Repr

/-- The reasons a step is refused. -/
inductive Refusal where
  /-- An instruction that has no meaning yet. No arm of `exec` answers it. Safe. -/
  | notModelled (mnemonic : String)
  /-- Raised by WRPIX, FILL, SWAP, LDB, STB when `errAlloc = 1`: "a model refuses every memory command" (R221). Safe. -/
  | allocationError
  /-- Raised by a command word with one of the opcodes 0x0, 0x7, 0xD, 0xE, 0xF: "a model refuses the word" (R88). Safe. -/
  | reservedOpcode
  /-- Raised by a command word with a 1 in a reserved bit of its format (R88). Safe. -/
  | reservedBits
  deriving DecidableEq, Repr

/-- The state of an instance right after reset (R34, R251). -/
def State.resetOf (c : Config) : State where
  cfg := c
  row := c.nrows - 1
  plane := 3
  front := if c.dbuf then 1 else 0
  swapPending := false
  running := false
  errAlloc := c.allocFails
  oe := false
  lat := false
  clk := false
  addr := 0
  rgb := 0#6
  ram := []
  host := .idle
  inputs := []
  responses := []
  events := []
  freeCount := 0

/-- The machine right after reset: the instance of the spec's program P3 (notes/assumptions/2.md). -/
def State.reset : State := State.resetOf Config.p3

end Sys2Proof.Machine
end

