-- ==== Sys2Proof/Machine/Ops.lean ====
section
/-! DEFINITION. The shared operations: the RAM accessors (spec/20_memory.md R50 to R54), the trace and response ports
(spec/00_scope.md R10), ending a command with a condition (spec/60_exceptions.md R220 to R224), the micro-operations of a
host command and where a tick may preempt them (spec/20_memory.md R59, R62; spec/60_exceptions.md R227 to R230). -/

namespace Sys2Proof.Machine

abbrev Outcome := Host.Outcome State Fault Refusal

/-! ### RAM -/

/-- `MemRead(a, 1)` (R10): an address that is not listed holds 0x00 (R61). -/
def Memory.read : Memory → Nat → Byte
  | [], _ => 0#8
  | (b, w) :: m, a => if b = a then w else Memory.read m a

/-- `MemWrite(a, 1, v)` (R10), keeping the canonical form. -/
def Memory.write : Memory → Nat → Byte → Memory
  | [], a, v => if v = 0#8 then [] else [(a, v)]
  | (b, w) :: m, a, v =>
    if a < b then (if v = 0#8 then (b, w) :: m else (a, v) :: (b, w) :: m)
    else if a = b then (if v = 0#8 then m else (a, v) :: m)
    else (b, w) :: Memory.write m a v

/-- The canonical form: addresses strictly rising, and no entry equal to what an unlisted address reads as. -/
abbrev Memory.wf (m : Memory) : Prop := m.Pairwise (fun c d => c.1 < d.1) ∧ ∀ c ∈ m, c.2 ≠ 0#8

/-- `FB(k, o)`: the linear address of offset `o` of region `k` (R10, R50). -/
def fb (c : Config) (k : Region) (o : Nat) : Nat := k.val * c.bufSize + o

/-- The back region: `1 - front` when DBUF, else 0; "computed from `x[front]` each time it is needed" (R25). -/
def State.back (s : State) : Region := if s.cfg.dbuf then 1 - s.front else 0

/-- One byte of the RAM (R61). -/
def State.readByte (s : State) (a : Nat) : Byte := Memory.read s.ram a

/-- One byte of a region, by offset. -/
def State.regionByte (s : State) (k : Region) (o : Nat) : Byte := Memory.read s.ram (fb s.cfg k o)

/-! ### Ports and named updates -/

/-- `emit E` (R10). -/
def State.emit (s : State) (e : OutEvent) : State := { s with events := s.events ++ [e] }

/-- `respond v` (R10). -/
def State.respond (s : State) (v : Response) : State := { s with responses := s.responses ++ [v] }

/-- The RAM replaced. -/
def State.withRam (s : State) (m : Memory) : State := { s with ram := m }

/-- The host agent moved to another phase (R31). -/
def State.withHost (s : State) (h : HostPhase) : State := { s with host := h }

/-- The waiting inputs replaced. -/
def State.withInputs (s : State) (l : List Input) : State := { s with inputs := l }

/-! ### Conditions -/

/-- The number of a condition, "visible on no port" (R220, decision D27). -/
def Condition.code : Condition → Nat
  | .allocationError => 1
  | .outOfRange => 2
  | .noOpSwap => 3

/-- `raise <Condition>`: the command ends with the condition (R10) and changes nothing.
AllocationError in BEGIN: "refused: no state change, no event" (R196), and the host's next command is taken
(notes/assumptions/10.md).
OutOfRange: "nothing is written, nothing is recorded, no response or event is produced" (R222).
NoOpSwap: "the flag is not set, the host does not wait, no copy is made" (R223). -/
def raise (c : Condition) (s : State) : Outcome :=
  match c with
  | .allocationError => .next s
  | .outOfRange => .next s
  | .noOpSwap => .next s

/-- The check of R226 that comes before a memory command's own condition: with `errAlloc = 1` the command is refused
(R221); otherwise it has its effect. -/
def needsRam (s : State) (effect : Outcome) : Outcome := if s.errAlloc then .refused .allocationError else effect

/-! ### Micro-operations -/

/-- One micro-operation: the RAM after it, and what is left of it (R59). A `copy` reads first and leaves its write. -/
def Micro.step : Micro → Memory → Option Micro × Memory
  | .upd a mask v, m => (none, Memory.write m a (Memory.read m a &&& ~~~mask ||| v))
  | .write a v, m => (none, Memory.write m a v)
  | .copy src dst, m => (some (.write dst (Memory.read m src)), m)

/-- The whole effect of a micro-operation on the RAM. -/
def Micro.effect (m : Memory) : Micro → Memory
  | .upd a mask v => Memory.write m a (Memory.read m a &&& ~~~mask ||| v)
  | .write a v => Memory.write m a v
  | .copy src dst => Memory.write m dst (Memory.read m src)

/-- How many micro-operations it counts for (R59, R146). -/
def Micro.cost : Micro → Nat
  | .upd _ _ _ => 1
  | .write _ _ => 1
  | .copy _ _ => 2

/-- The address it writes. -/
def Micro.target : Micro → Nat
  | .upd a _ _ => a
  | .write a _ => a
  | .copy _ dst => dst

/-- The host runs a list of micro-operations to its end, in order (R59). -/
def runAll (ms : List Micro) (m : Memory) : Memory := ms.foldl Micro.effect m

/-- How many micro-operations a list makes. -/
def microCount : List Micro → Nat
  | [] => 0
  | m :: ms => m.cost + microCount ms

/-- The host does `n` micro-operations of a list: what is left of the list, and the RAM. -/
def runSome : Nat → List Micro → Memory → List Micro × Memory
  | 0, ms, m => (ms, m)
  | _ + 1, [], m => ([], m)
  | n + 1, u :: ms, m =>
    match u.step m with
    | (none, m') => runSome n ms m'
    | (some u', m') => runSome n (u' :: ms) m'

/-- The host takes a step at its micro-operations. If the environment's next event is a tick, only as many are done as
come before it; what is then left waits in the host phase and the tick is due (R62, R228, R229): "every host
micro-operation before the tick has fully happened and none after it has started". -/
def runHost (ms : List Micro) (s : State) : State :=
  match s.inputs with
  | .tick n :: rest =>
    match runSome n ms s.ram with
    | ([], m) => s.withRam m
    | (u :: left, m) => ((s.withRam m).withHost (.busy (u :: left))).withInputs (.tick 0 :: rest)
  | _ => s.withRam (runAll ms s.ram)

end Sys2Proof.Machine
end

