-- ==== Sys2Proof/Machine/Operands.lean ====
section
/-! DEFINITION. Operand forms: coordinates and rotation (spec/41_framebuffer.md R140), the packed layout's accessor
(spec/20_memory.md R57), raw offsets (R147, R148) and the bit slices of the codec's inputs (spec/30_encoding.md R82). -/

namespace Sys2Proof.Machine

/-- `ADDR_W`: the smallest n >= 1 with `2^n >= NROWS` (R7, decision D21). -/
def addrW (c : Config) : Nat := if c.nrows ≤ 2 then 1 else Nat.log2 (c.nrows - 1) + 1

/-- The visible area for a rotation: width and height (R140). -/
def visibleArea (c : Config) : Rotation → Int × Int
  | .r0 => (c.width, c.height)
  | .r180 => (c.width, c.height)
  | .r90 => (c.height, c.width)
  | .r270 => (c.height, c.width)

/-- The coordinate is inside the rotation-adjusted visible area (R140). -/
def visible (c : Config) (rot : Rotation) (x y : Int) : Bool :=
  decide (0 ≤ x ∧ x < (visibleArea c rot).1 ∧ 0 ≤ y ∧ y < (visibleArea c rot).2)

/-- The four coordinate transforms (R140, decision D5). -/
def rotate (c : Config) (x y : Int) : Rotation → Int × Int
  | .r0 => (x, y)
  | .r90 => (c.width - 1 - y, x)
  | .r180 => (c.width - 1 - x, c.height - 1 - y)
  | .r270 => (y, c.height - 1 - x)

/-- `Xform(x, y, rot)`: the physical pixel, or `none` for OutOfRange (R140). -/
def xform (c : Config) (rot : Rotation) (x y : Int) : Option (Nat × Nat) :=
  if visible c rot x y then some ((rotate c x y rot).1.toNat, (rotate c x y rot).2.toNat) else none

/-- The physical pixel is in the upper half of the panel (R57). -/
def upperHalf (c : Config) (py : Nat) : Bool := decide (py < c.nrows)

/-- The scan row that shows a physical row (R57). -/
def scanRow (c : Config) (py : Nat) : Nat := if upperHalf c py then py else py - c.nrows

/-- The base offset of a pixel's column: `s*WIDTH*3 + px` (R55, R57). -/
def baseOffset (c : Config) (px py : Nat) : Nat := scanRow c py * c.width * 3 + px

/-- The bit of planes 1 to 3 for a channel: 2, 3, 4 in the upper half, 5, 6, 7 in the lower (R57). -/
def weightedBit (upper : Bool) : Channel → Nat
  | .R => if upper then 2 else 5
  | .G => if upper then 3 else 6
  | .B => if upper then 4 else 7

/-- `Loc(px, py, ch, p)`: the offset and the bit where that bit of that pixel lives (R57). -/
def loc (c : Config) (px py : Nat) (ch : Channel) (p : Plane) : Nat × Nat :=
  if 1 ≤ p.val then (baseOffset c px py + (p.val - 1) * c.width, weightedBit (upperHalf c py) ch)
  else if upperHalf c py then
    match ch with
    | .R => (baseOffset c px py + 2 * c.width, 0)
    | .G => (baseOffset c px py + 2 * c.width, 1)
    | .B => (baseOffset c px py + c.width, 0)
  else
    match ch with
    | .R => (baseOffset c px py + c.width, 1)
    | .G => (baseOffset c px py, 0)
    | .B => (baseOffset c px py, 1)

/-- A raw offset names a byte of the region (R147, R148). -/
def offsetInside (c : Config) (off : Nat) : Bool := decide (off < c.bufSize)

/-- The bits of a channel operand C333 uses: `v[2:0]` (R82). -/
def low3 (v : BitVec 8) : BitVec 3 := v.extractLsb' 0 3

/-- The bits of a channel operand C444 uses: `v[3:0]` (R82). -/
def low4 (v : BitVec 8) : BitVec 4 := v.extractLsb' 0 4

end Sys2Proof.Machine
end

