-- ==== Sys2Proof/Machine/Codec.lean ====
section
/-! DEFINITION. The Color Codec (spec/40_color_codec.md R110 to R121): QNT, C333, C444, C888, CHSV. No command of this file
reads or writes a register or the RAM; each only responds. -/

namespace Sys2Proof.Machine

/-- `Quant565(c)`: the top four bits of each channel (R110). -/
def quant565 (c : Colour16) : Rgb444 := ⟨c.extractLsb' 12 4, c.extractLsb' 7 4, c.extractLsb' 1 4⟩

/-- `Promote(v, n, m)`: the `n` bits on top and the `m - n` most significant of them repeated below (R112). -/
def promote (n m : Nat) (v : BitVec n) : BitVec m :=
  (v ++ v.extractLsb' (2 * n - m) (m - n)).setWidth m

/-- Three channel fields as a colour16: `{R5, G6, B5}` (R83). -/
def pack565 (r : BitVec 5) (g : BitVec 6) (b : BitVec 5) : Colour16 := r ++ g ++ b

/-- `C444f(r4, g4, b4)` (R114). -/
def c444f (c : Rgb444) : Colour16 := pack565 (promote 4 5 c.r) (promote 4 6 c.g) (promote 4 5 c.b)

/-- `promote333` (R113). -/
def c333f (r g b : BitVec 3) : Colour16 := pack565 (promote 3 5 r) (promote 3 6 g) (promote 3 5 b)

/-- The rgb444 triple on the response port: `{0b0000, r, g, b}` (R83, R85). -/
def rgb444Response (c : Rgb444) : Response := 0#4 ++ c.r ++ c.g ++ c.b

/-- `demote888` without gamma: the top 5, 6 and 5 bits (R116, decision D30). -/
def truncate888 (r g b : BitVec 8) : Colour16 :=
  pack565 (r.extractLsb' 3 5) (g.extractLsb' 2 6) (b.extractLsb' 3 5)

/-- `GAMMA4(i)`: one look-up in the instance's table (R115). -/
def gamma4 (c : Config) (i : BitVec 8) : BitVec 4 := c.gamma.get i.toFin

/-- `demote888` (R116). -/
def demote888 (cfg : Config) (gflag : Bool) (r g b : BitVec 8) : Colour16 :=
  if gflag then c444f ⟨gamma4 cfg r, gamma4 cfg g, gamma4 cfg b⟩ else truncate888 r g b

/-- `h = hue mod 1536`, the mathematical remainder (R117, R120). -/
def hueReduced (hue : Int) : Nat := (hue % 1536).toNat

/-- The fully saturated triple of a reduced hue: six sextants of 256 steps (R117, decision D20). -/
def hueTriple (h : Nat) : Nat × Nat × Nat :=
  let lo := h &&& 255
  match h >>> 8 with
  | 0 => (255, lo, 0)
  | 1 => (255 - lo, 255, 0)
  | 2 => (0, 255, lo)
  | 3 => (0, 255 - lo, 255)
  | 4 => (lo, 0, 255)
  | _ => (255, 0, 255 - lo)

/-- The saturation stage of one channel: `255 - (((255 - ch) * (sat + 1)) >> 8)` (R118). -/
def saturate (ch sat : Nat) : Nat := 255 - (((255 - ch) * (sat + 1)) >>> 8)

/-- The value stage of one channel: `(ch * (val + 1)) >> 8` (R118). -/
def scaleValue (ch val : Nat) : Nat := (ch * (val + 1)) >>> 8

/-- Eight bits to four: through the gamma table, or the top four (R118). -/
def toFour (cfg : Config) (gflag : Bool) (ch : Nat) : BitVec 4 :=
  if gflag then gamma4 cfg (BitVec.ofNat 8 ch) else BitVec.ofNat 4 (ch >>> 4)

/-- One channel of `hsvToRgb` after the hue stage (R118). -/
def hsvChannel (cfg : Config) (gflag : Bool) (ch sat val : Nat) : BitVec 4 :=
  toFour cfg gflag (scaleValue (saturate ch sat) val)

/-- `hsvToRgb` (R119). -/
def hsvToRgb (cfg : Config) (gflag : Bool) (hue : Int) (sat val : BitVec 8) : Colour16 :=
  let t := hueTriple (hueReduced hue)
  c444f ⟨hsvChannel cfg gflag t.1 sat.toNat val.toNat, hsvChannel cfg gflag t.2.1 sat.toNat val.toNat,
    hsvChannel cfg gflag t.2.2 sat.toNat val.toNat⟩

/-- QNT (R111). -/
def execQnt (color : Colour16) (s : State) : Outcome := .next (s.respond (rgb444Response (quant565 color)))

/-- C333 (R113). -/
def execC333 (r g b : BitVec 8) (s : State) : Outcome := .next (s.respond (c333f (low3 r) (low3 g) (low3 b)))

/-- C444 (R114). -/
def execC444 (r g b : BitVec 8) (s : State) : Outcome := .next (s.respond (c444f ⟨low4 r, low4 g, low4 b⟩))

/-- C888 (R116). -/
def execC888 (gflag : Bool) (r g b : BitVec 8) (s : State) : Outcome := .next (s.respond (demote888 s.cfg gflag r g b))

/-- CHSV (R119). -/
def execChsv (gflag : Bool) (hue : Int) (sat val : BitVec 8) (s : State) : Outcome :=
  .next (s.respond (hsvToRgb s.cfg gflag hue sat val))

end Sys2Proof.Machine
end

