-- ==== Sys2Proof/Machine/Flags.lean ====
section
/-! DEFINITION. The flags of the block (spec/10_state.md R27 to R29): `swapPending`, `running`, `errAlloc`. "There are no
arithmetic condition codes, carry, overflow or predicate flags in the block." -/

namespace Sys2Proof.Machine

/-- SWAP sets the pending-swap flag (R27). -/
def State.requestSwap (s : State) : State := { s with swapPending := true }

/-- BEGIN arms the interrupt (R28). -/
def State.armInterrupt (s : State) : State := { s with running := true }

/-- The frame boundary honours a pending swap: `front` toggles and the flag is cleared (R185). -/
def State.honourSwap (s : State) : State :=
  if s.swapPending then { s with front := 1 - s.front, swapPending := false } else s

/-- The level output `err_alloc` (R85). -/
def State.errAllocOut (s : State) : Bool := s.errAlloc

end Sys2Proof.Machine
end

