-- ==== Sys2Proof/Machine/Framebuffer.lean ====
section
/-! DEFINITION. The Packed Framebuffer (spec/41_framebuffer.md R140 to R154): WRPIX, FILL, SWAP, LDB, STB, the encoder and
the decoder. A command's byte accesses are a list of micro-operations, made when the command starts; `runHost` runs it. -/

namespace Sys2Proof.Machine

/-- Bit `p` of a channel, moved to bit `pos` of a byte. -/
def bitAt (v : BitVec 4) (p pos : Nat) : Byte := (BitVec.ofBool (v.getLsbD p)).setWidth 8 <<< pos

/-- `EncodePixel(k, px, py, r, g, b)`: three byte updates in ascending offset (R141). -/
def encodePixel (c : Config) (k : Region) (px py : Nat) (v : Rgb444) : List Micro :=
  let base := baseOffset c px py
  if upperHalf c py then
    [.upd (fb c k base) 0x1C#8 (bitAt v.r 1 2 ||| bitAt v.g 1 3 ||| bitAt v.b 1 4),
     .upd (fb c k (base + c.width)) 0x1D#8 (bitAt v.r 2 2 ||| bitAt v.g 2 3 ||| bitAt v.b 2 4 ||| bitAt v.b 0 0),
     .upd (fb c k (base + 2 * c.width)) 0x1F#8
       (bitAt v.r 3 2 ||| bitAt v.g 3 3 ||| bitAt v.b 3 4 ||| bitAt v.g 0 1 ||| bitAt v.r 0 0)]
  else
    [.upd (fb c k base) 0xE3#8
       (bitAt v.r 1 5 ||| bitAt v.g 1 6 ||| bitAt v.b 1 7 ||| bitAt v.b 0 1 ||| bitAt v.g 0 0),
     .upd (fb c k (base + c.width)) 0xE2#8 (bitAt v.r 2 5 ||| bitAt v.g 2 6 ||| bitAt v.b 2 7 ||| bitAt v.r 0 1),
     .upd (fb c k (base + 2 * c.width)) 0xE0#8 (bitAt v.r 3 5 ||| bitAt v.g 3 6 ||| bitAt v.b 3 7)]

/-- The bit of a pixel's channel and plane as the RAM holds it: `Bit(Loc(px, py, ch, p))` (R142). -/
def pixelBit (c : Config) (m : Memory) (k : Region) (px py : Nat) (ch : Channel) (p : Plane) : Bool :=
  (Memory.read m (fb c k (loc c px py ch p).1)).getLsbD (loc c px py ch p).2

/-- The four plane bits of a channel recombined with weights 1, 2, 4, 8 (R142). -/
def decodeChannel (c : Config) (m : Memory) (k : Region) (px py : Nat) (ch : Channel) : BitVec 4 :=
  BitVec.ofBool (pixelBit c m k px py ch 3) ++ BitVec.ofBool (pixelBit c m k px py ch 2) ++
    BitVec.ofBool (pixelBit c m k px py ch 1) ++ BitVec.ofBool (pixelBit c m k px py ch 0)

/-- `DecodePixel(k, px, py)` (R142). It is no command; claims and tests read pixels with it. -/
def decodePixel (c : Config) (m : Memory) (k : Region) (px py : Nat) : Rgb444 :=
  ⟨decodeChannel c m k px py .R, decodeChannel c m k px py .G, decodeChannel c m k px py .B⟩

/-- The bulk fill: every byte of the region in ascending offset (R144). -/
def bulkFill (c : Config) (k : Region) (v : Byte) : List Micro :=
  (List.range c.bufSize).map fun o => .write (fb c k o) v

/-- The per-pixel fill: `py` outer, `px` inner (R144, decision D25). -/
def pixelFill (c : Config) (k : Region) (v : Rgb444) : List Micro :=
  (List.range c.height).flatMap fun py => (List.range c.width).flatMap fun px => encodePixel c k px py v

/-- The byte accesses of `fillAll(color16)` (R144). -/
def fillMicros (c : Config) (k : Region) (color : Colour16) : List Micro :=
  if color = 0x0000#16 then bulkFill c k 0x00#8
  else if color = 0xFFFF#16 then bulkFill c k 0xFF#8
  else pixelFill c k (quant565 color)

/-- `CopyForward()`: region `f` to region `1 - f`, in ascending offset (R146). -/
def copyForward (c : Config) (f : Region) : List Micro :=
  (List.range c.bufSize).map fun o => .copy (fb c f o) (fb c (1 - f) o)

/-- WRPIX (R143). -/
def execWrpix (rot : Rotation) (x y : Int) (color : Colour16) (s : State) : Outcome :=
  needsRam s <|
    match xform s.cfg rot x y with
    | none => raise .outOfRange s
    | some (px, py) => .next (runHost (encodePixel s.cfg s.back px py (quant565 color)) s)

/-- FILL (R144). -/
def execFill (color : Colour16) (s : State) : Outcome :=
  needsRam s (.next (runHost (fillMicros s.cfg s.back color) s))

/-- SWAP (R145): the flag is set and the host waits; the step in which it finds the flag cleared is `resumeSwap`. -/
def execSwap (copy : Bool) (s : State) : Outcome :=
  needsRam s (if s.cfg.dbuf then .next (s.requestSwap.withHost (.waiting copy)) else raise .noOpSwap s)

/-- The end of a SWAP's wait (R145, R146): the host goes on, first copying if `copy = 1`, "with front and back as they are
now". -/
def resumeSwap (copy : Bool) (s : State) : State :=
  if copy then runHost (copyForward s.cfg s.front) (s.withHost .idle) else s.withHost .idle

/-- LDB (R147). -/
def execLdb (off : Nat) (s : State) : Outcome :=
  needsRam s <|
    if offsetInside s.cfg off then .next (s.respond (0#8 ++ s.regionByte s.back off)) else .fault .rawOffsetOutside

/-- STB (R148). -/
def execStb (off : Nat) (data : Byte) (s : State) : Outcome :=
  needsRam s <|
    if offsetInside s.cfg off then .next (s.withRam (Memory.write s.ram (fb s.cfg s.back off) data))
    else .fault .rawOffsetOutside

end Sys2Proof.Machine
end

