-- ==== Sys2Proof/Machine/Scheduler.lean ====
section
/-! DEFINITION. The Refresh Scheduler (spec/42_scheduler.md R180 to R200): TICK and BEGIN. The tick is the block's one
interrupt (spec/60_exceptions.md R227): taking it saves nothing, changes no mode and runs R191's fixed protocol (R229);
there is nothing to restore when it ends (R230). -/

namespace Sys2Proof.Machine

/-- The advance wraps the plane: `p' >= 4` (R184). -/
def planeWraps (p : Plane) : Bool := decide (4 ≤ p.val + 1)

/-- The plane after the advance (R184). -/
def nextPlane (p : Plane) : Plane := p + 1

/-- The row after the advance (R184). -/
def nextRow (c : Config) (row : Nat) (p : Plane) : Nat :=
  if planeWraps p then (if c.nrows ≤ row + 1 then 0 else row + 1) else row

/-- The advance wraps `row` to 0: the frame boundary (R184, R185). -/
def frameBoundary (c : Config) (row : Nat) (p : Plane) : Bool := planeWraps p && decide (c.nrows ≤ row + 1)

/-- `d = BASE_DURATION << plane`, not truncated (R183). -/
def interval (c : Config) (p : Plane) : Nat := c.baseDuration <<< p.val

/-- `ColMask(k, s, p, i)`: the six colour-line bits of a column (R189). -/
def colMask (c : Config) (m : Memory) (k : Region) (row : Nat) (p : Plane) (i : Nat) : ColourLines :=
  let rb := row * c.width * 3
  if 1 ≤ p.val then (Memory.read m (fb c k (rb + (p.val - 1) * c.width + i))).extractLsb' 2 6
  else
    (Memory.read m (fb c k (rb + i))).extractLsb' 0 2 ++ (Memory.read m (fb c k (rb + c.width + i))).extractLsb' 0 2 ++
      (Memory.read m (fb c k (rb + 2 * c.width + i))).extractLsb' 0 2

/-- Part 1: blank, latch, clock low (R182). -/
def blankAndLatch (s : State) : State :=
  { (((s.emit (.oe false)).emit (.lat true)).emit .clkLow) with oe := false, lat := true, clk := false }

/-- Part 3: the advance, and the swap at the frame boundary (R184, R185). -/
def advance (s : State) : State :=
  let t := { s with row := nextRow s.cfg s.row s.plane, plane := nextPlane s.plane }
  if frameBoundary s.cfg s.row s.plane then t.honourSwap else t

/-- The row-address update: exactly when the plane has become 1 (R186). -/
def updateRowAddress (s : State) : State :=
  if s.plane = 1 then { s.emit (.addr s.row) with addr := s.row } else s

/-- The timer event (R187). -/
def programTimer (d : Nat) (s : State) : State := s.emit (.timer d)

/-- Part 4: unblank, latch low (R188). -/
def unblank (s : State) : State := { (s.emit (.oe true)).emit (.lat false) with oe := true, lat := false }

/-- One column of the shift-out (R190). After the pulse the level of the clock is a free value (U9,
notes/assumptions/4.md). -/
def shiftColumn (s : State) (i : Nat) : State :=
  let m := colMask s.cfg s.ram s.front s.row s.plane i
  { (s.emit (.rgb m)).emit .clkPulse with
      rgb := m, clk := Config.clkAfterPulse s.freeCount, freeCount := s.freeCount + 1 }

/-- Part 5: the shift-out, column 0 first (R190). -/
def shiftOut (s : State) : State := (List.range s.cfg.width).foldl shiftColumn s

/-- The per-tick protocol of a running instance (R191). The interval is that of the plane on entry (R183). -/
def tickBody (s : State) : State :=
  shiftOut (unblank (programTimer (interval s.cfg s.plane) (updateRowAddress (advance (blankAndLatch s)))))

/-- One tick event: without effect until BEGIN has armed the interrupt (R180, R191). -/
def takeTick (s : State) : State := if s.running then tickBody s else s

/-- TICK (R191): it cannot fail, wait or be refused. -/
def execTick (s : State) : Outcome := .next (takeTick s)

/-- BEGIN (R196). -/
def execBegin (s : State) : Outcome :=
  if s.errAlloc then raise .allocationError s
  else if s.running then .next s
  else .next (s.armInterrupt.emit .irqReg)

end Sys2Proof.Machine
end

