-- ==== Sys2Proof/Machine/Dispatch.lean ====
section
/-! DEFINITION. One arm per constructor of Instr, each one call of its meaning. -/

namespace Sys2Proof.Machine

def exec (i : Instr) (s : State) : Host.Outcome State Fault Refusal :=
  match i with
  | .beginCmd => Sys2Proof.Machine.execBegin s
  | .wrpix rot x y color => Sys2Proof.Machine.execWrpix rot x y color s
  | .fill color => Sys2Proof.Machine.execFill color s
  | .swap copy => Sys2Proof.Machine.execSwap copy s
  | .ldb off => Sys2Proof.Machine.execLdb off s
  | .stb off data => Sys2Proof.Machine.execStb off data s
  | .qnt color => Sys2Proof.Machine.execQnt color s
  | .c333 r g b => Sys2Proof.Machine.execC333 r g b s
  | .c444 r g b => Sys2Proof.Machine.execC444 r g b s
  | .c888 gflag r g b => Sys2Proof.Machine.execC888 gflag r g b s
  | .chsv gflag hue sat val => Sys2Proof.Machine.execChsv gflag hue sat val s
  | .tick => Sys2Proof.Machine.execTick s

end Sys2Proof.Machine
end

