-- ==== Sys2Proof/WellFormed.lean ====
section
/-! DEFINITION. Which instruction terms an encoding can carry: the operand ranges of spec/30_encoding.md R82. -/

namespace Sys2Proof

/-- The range of a 16-bit two's-complement coordinate (R82). -/
def coordFits (v : Int) : Bool := decide (-32768 ≤ v ∧ v ≤ 32767)

/-- The range of the 32-bit two's-complement hue (R82). -/
def hueFits (v : Int) : Bool := decide (-2147483648 ≤ v ∧ v ≤ 2147483647)

/-- The range of the unsigned 24-bit byte offset (R82). -/
def offsetFits (o : Nat) : Bool := decide (o < 16777216)

/-- An instruction is well formed when each of its operands fits its field. -/
def Instr.wf : Instr → Bool
  | .beginCmd => true
  | .wrpix _ x y _ => coordFits x && coordFits y
  | .fill _ => true
  | .swap _ => true
  | .ldb off => offsetFits off
  | .stb off _ => offsetFits off
  | .qnt _ => true
  | .c333 _ _ _ => true
  | .c444 _ _ _ => true
  | .c888 _ _ _ _ => true
  | .chsv _ hue _ _ => hueFits hue
  | .tick => true

end Sys2Proof
end

