-- ==== Sys2Proof/Decode.lean ====
section
/-! DEFINITION. The decoder and the encoder of the two input ports (spec/30_encoding.md R81 to R89). A command is one
64-bit word; a word is a command exactly when it matches a row of R84's table; every other word is rejected by name. The
tick port carries one bit. -/

namespace Sys2Proof

/-- The assigned opcodes (R84). -/
inductive Opcode where
  | begin_ | wrpix | fill | swap | ldb | stb | qnt | c333 | c444 | c888 | chsv
  deriving DecidableEq, Repr

/-- Why a command word is no instruction. -/
inductive DecodeError where
  /-- The opcode is one of 0x0, 0x7, 0xD, 0xE, 0xF (R88). -/
  | reservedOpcode
  /-- The opcode is assigned and a reserved bit of its format is 1 (R88). -/
  | reservedBits
  deriving DecidableEq, Repr

/-- What an input port carries: a command word, or the one bit of the tick port (R80, R86). -/
inductive Signal where
  | command (w : CommandWord)
  | tickPort (b : BitVec 1)
  deriving DecidableEq, Repr

/-- One row of R84's table: a word is the command when `w &&& mask = pattern`. -/
structure OpRow where
  opcode : Opcode
  pattern : CommandWord
  mask : CommandWord
  deriving DecidableEq, Repr

/-- R84's table. -/
def opcodeTable : List OpRow :=
  [⟨.begin_, 0x1000000000000000#64, 0xFFFFFFFFFFFFFFFF#64⟩,
   ⟨.wrpix,  0x2000000000000000#64, 0xFFFC000000000000#64⟩,
   ⟨.fill,   0x3000000000000000#64, 0xFFFFFFFFFFFF0000#64⟩,
   ⟨.swap,   0x4000000000000000#64, 0xFFFFFFFFFFFFFFFE#64⟩,
   ⟨.ldb,    0x5000000000000000#64, 0xFFFFFFFF000000FF#64⟩,
   ⟨.stb,    0x6000000000000000#64, 0xFFFFFFFF00000000#64⟩,
   ⟨.qnt,    0x8000000000000000#64, 0xFFFFFFFFFFFF0000#64⟩,
   ⟨.c333,   0x9000000000000000#64, 0xFFFFFFFFFF000000#64⟩,
   ⟨.c444,   0xA000000000000000#64, 0xFFFFFFFFFF000000#64⟩,
   ⟨.c888,   0xB000000000000000#64, 0xFFFFFFFFFE000000#64⟩,
   ⟨.chsv,   0xC000000000000000#64, 0xFFFE000000000000#64⟩]

/-- The row `w` matches (R84: "a word w is the command iff `w & mask = match`"). -/
def OpRow.hits (r : OpRow) (w : CommandWord) : Bool := decide (w &&& r.mask = r.pattern)

/-- `rot` is unsigned 0..3 meaning 0, 90, 180, 270 degrees (R82). -/
def Rotation.ofBits (b : BitVec 2) : Rotation :=
  if b = 0#2 then .r0 else if b = 1#2 then .r90 else if b = 2#2 then .r180 else .r270

/-- The field `rot` of a rotation (R82). -/
def Rotation.toBits : Rotation → BitVec 2
  | .r0 => 0#2
  | .r90 => 1#2
  | .r180 => 2#2
  | .r270 => 3#2

/-- The bit slice `w[lo + n - 1 : lo]` of a command word (R9). -/
def field (w : CommandWord) (lo n : Nat) : BitVec n := w.extractLsb' lo n

/-- A one-bit operand, 1 = true (R82). -/
def flagField (w : CommandWord) (i : Nat) : Bool := w.getLsbD i

/-- The operands of a word whose opcode is known: the field positions of R81, assembled as R82 says. -/
def assemble (w : CommandWord) : Opcode → Instr
  | .begin_ => .beginCmd
  | .wrpix => .wrpix (Rotation.ofBits (field w 48 2)) (field w 32 16).toInt (field w 16 16).toInt (field w 0 16)
  | .fill => .fill (field w 0 16)
  | .swap => .swap (flagField w 0)
  | .ldb => .ldb (field w 8 24).toNat
  | .stb => .stb (field w 8 24).toNat (field w 0 8)
  | .qnt => .qnt (field w 0 16)
  | .c333 => .c333 (field w 16 8) (field w 8 8) (field w 0 8)
  | .c444 => .c444 (field w 16 8) (field w 8 8) (field w 0 8)
  | .c888 => .c888 (flagField w 24) (field w 16 8) (field w 8 8) (field w 0 8)
  | .chsv => .chsv (flagField w 48) (field w 16 32).toInt (field w 8 8) (field w 0 8)

/-- The opcodes R84 assigns; R88 reserves the other five. -/
def opcodeAssigned (op : BitVec 4) : Bool :=
  !(op == 0x0#4 || op == 0x7#4 || op == 0xD#4 || op == 0xE#4 || op == 0xF#4)

/-- The decoder of the command port: total on any 64 bits (R84, R88, R89). -/
def decodeCommand (w : CommandWord) : Except DecodeError Instr :=
  match opcodeTable.find? (fun r => r.hits w) with
  | some r => .ok (assemble w r.opcode)
  | none => .error (if opcodeAssigned (field w 60 4) then .reservedBits else .reservedOpcode)

/-- The decoder of the tick port: the pattern 1 is the tick event; "nothing else can be signalled on that port" (R86). -/
def decodeTick (b : BitVec 1) : Option Instr := if b = 1#1 then some .tick else none

/-- The decoder of both ports; `decodeCommand` says why a word is none. -/
def decode : Signal → Option Instr
  | .command w => (decodeCommand w).toOption
  | .tickPort b => decodeTick b

/-- A one-bit field. -/
def flagBit (b : Bool) : BitVec 1 := BitVec.ofBool b

/-- The encoder, format by format from R81's table: fields from bit 63 down, reserved bits 0. -/
def encode : Instr → Signal
  | .beginCmd => .command (0x1#4 ++ 0#60)
  | .wrpix rot x y color =>
      .command (0x2#4 ++ 0#10 ++ rot.toBits ++ BitVec.ofInt 16 x ++ BitVec.ofInt 16 y ++ color)
  | .fill color => .command (0x3#4 ++ 0#44 ++ color)
  | .swap copy => .command (0x4#4 ++ 0#59 ++ flagBit copy)
  | .ldb off => .command (0x5#4 ++ 0#28 ++ BitVec.ofNat 24 off ++ 0#8)
  | .stb off data => .command (0x6#4 ++ 0#28 ++ BitVec.ofNat 24 off ++ data)
  | .qnt color => .command (0x8#4 ++ 0#44 ++ color)
  | .c333 r g b => .command (0x9#4 ++ 0#36 ++ r ++ g ++ b)
  | .c444 r g b => .command (0xA#4 ++ 0#36 ++ r ++ g ++ b)
  | .c888 gflag r g b => .command (0xB#4 ++ 0#35 ++ flagBit gflag ++ r ++ g ++ b)
  | .chsv gflag hue sat val =>
      .command (0xC#4 ++ 0#11 ++ flagBit gflag ++ BitVec.ofInt 32 hue ++ sat ++ val)
  | .tick => .tickPort 1#1

/-- The signal the opcode table's bits stand for: a row of at most one byte is the tick port's row (R86), every other row
is a 64-bit command word. -/
def tableSignal (nbits w : Nat) : Signal :=
  if nbits ≤ 8 then .tickPort (if w = 1 then 1#1 else 0#1) else .command (BitVec.ofNat 64 w)

/-- The instruction the decoder reads from bits `w` numbered as spec/opcode_table.json numbers them. -/
def decodeTableWord (nbits w : Nat) : Option Instr := decode (tableSignal nbits w)

end Sys2Proof
end

