-- ==== Sys2Proof/Machine/Fetch.lean ====
section
/-! DEFINITION. Which agent moves next, and what the host goes on with (spec/00_scope.md R8; spec/20_memory.md R61, R62;
spec/60_exceptions.md R228 to R230; spec/70_reset_and_hazards.md R267). -/

namespace Sys2Proof.Machine

/-- The inputs, less a tick event that is taken now. -/
def afterTick : List Input → List Input
  | .tick _ :: rest => rest
  | l => l

/-- A tick event arrives before the host's next micro-operation (R228). Between commands any tick event at the head is
taken at once; so is one while a SWAP still waits, since then only a tick can step (R145). When the host has
micro-operations to do, a tick is due when none of them comes before it. With the inputs exhausted and no command in
progress the environment sends another tick event: its fairness obligation (R62, R267; notes/assumptions/6.md). -/
def tickDue (s : State) : Bool :=
  match s.host, s.inputs with
  | .idle, .command _ :: _ => false
  | .idle, _ => true
  | .waiting _, .tick 0 :: _ => true
  | .waiting _, _ => s.swapPending
  | .busy _, .tick 0 :: _ => true
  | .busy _, _ => false

/-- What the host does when it is its turn and it has a command in progress: the rest of a preempted command, or the end
of a SWAP's wait (R145, R229, R230). -/
def resumeHost (s : State) : State :=
  match s.host with
  | .idle => s
  | .busy ms => runHost ms (s.withHost .idle)
  | .waiting copy => resumeSwap copy s

/-- The reason for which a reserved command word is refused (R88). -/
def refusalOf : DecodeError → Refusal
  | .reservedOpcode => .reservedOpcode
  | .reservedBits => .reservedBits

/-- A signal put where the next step takes it: at the head of the inputs, with the host free to take a command. -/
def placeSignal (s : State) : Signal → State
  | .command w => (s.withHost .idle).withInputs (.command w :: s.inputs)
  | .tickPort b => if b = 1#1 then s.withInputs (.tick 0 :: s.inputs) else s

end Sys2Proof.Machine
end

