-- ==== Sys2Proof/Machine/Step.lean ====
section
/-! DEFINITION. One step of the machine: a tick event, the next command, or the host's command in progress. -/

namespace Sys2Proof.Machine

/-- One step. A due tick event is decoded and executed; otherwise an idle host takes its next command word, decodes it and
executes it; otherwise the host goes on with its command (R8, R61, R62). -/
def step (s : State) : Host.Outcome State Fault Refusal :=
  if tickDue s then exec .tick (s.withInputs (afterTick s.inputs))
  else
    match s.host, s.inputs with
    | .idle, .command w :: rest =>
      match decodeCommand w with
      | .ok i => exec i (s.withInputs rest)
      | .error e => .refused (refusalOf e)
    | _, _ => .next (resumeHost s)

/-- The state with an instruction placed where the next step takes it: the signal the table's bits stand for, at the head
of the input ports (notes/assumptions/20.md). -/
def State.withFetchWord (s : State) (nbits w : Nat) : State := placeSignal s (tableSignal nbits w)

end Sys2Proof.Machine
end

