-- ==== Sys2Proof/Machine/Pseudo.lean ====
section
/-! DEFINITION. The pseudo-instructions and the default operands of the assembler syntax (spec/30_encoding.md R90 to R92):
each expands to core instructions. -/

namespace Sys2Proof.Machine

/-- `DUMP` = `LDB 0; LDB 1; ...; LDB BUFSZ-1` (R92, R149). -/
def dump (c : Config) : List Instr := (List.range c.bufSize).map .ldb

/-- `LOAD b0, b1, ...` = `STB 0, b0; STB 1, b1; ...` (R92). -/
def load (bytes : List Byte) : List Instr := bytes.zipIdx.map fun (b, o) => .stb o b

/-- `CLEAR` = `FILL 0x0000` (R92). -/
def clear : Instr := .fill 0x0000#16

/-- `SWAPC` = `SWAP 1` (R92). -/
def swapc : Instr := .swap true

/-- `WRPIX x, y, color [, rot]`; an absent `rot` is 0 (R90). -/
def wrpix (x y : Int) (color : Colour16) (rot : Rotation := .r0) : Instr := .wrpix rot x y color

/-- `C888 r, g, b [, gflag]`; an absent `gflag` is 0 (R90). -/
def c888 (r g b : BitVec 8) (gflag : Bool := false) : Instr := .c888 gflag r g b

/-- `CHSV hue, sat, val [, gflag]`; an absent `gflag` is 0 (R90). -/
def chsv (hue : Int) (sat val : BitVec 8) (gflag : Bool := false) : Instr := .chsv gflag hue sat val

/-- What the environment sends for an instruction: its word on the command port, or a tick event (R80). -/
def inputOf (i : Instr) : Input :=
  match encode i with
  | .command w => .command w
  | .tickPort _ => .tick 0

end Sys2Proof.Machine
end

