-- ==== Sys2Proof/Safety.lean ====
section
/-! DEFINITION. What claims are stated in: the invariant of a state (spec/10_state.md R32, R33), runs of ticks, the order of
a tick's events (spec/70_reset_and_hazards.md R258), and an observer of the panel behind the boundary (spec/10_state.md
R31; spec/42_scheduler.md R192, R193, R195). -/

namespace Sys2Proof.Machine

/-! ### Invariants -/

/-- A linear address lies in a region of the instance (R50). -/
def inRegion (c : Config) (k : Region) (a : Nat) : Prop := fb c k 0 ≤ a ∧ a < fb c k 0 + c.bufSize

/-- A micro-operation keeps to the access rights of the host (R36, R52): it writes the back region, and it reads the back
region, or the front region in a copy-forward. -/
def Micro.legal (c : Config) (back : Region) : Micro → Prop
  | .upd a _ _ => inRegion c back a
  | .write a _ => inRegion c back a
  | .copy src dst => inRegion c back dst ∧ inRegion c (1 - back) src

/-- The invariant every step keeps: the ranges of R33, the flag discipline of R27 to R29, the memory's canonical form and
extent (R50), and the host's access rights (R52). -/
structure State.Inv (s : State) : Prop where
  legal : s.cfg.Legal
  row_lt : s.row < s.cfg.nrows
  addr_lt : s.addr < s.cfg.nrows
  front_single : s.cfg.dbuf = false → s.front = 0
  pending_single : s.cfg.dbuf = false → s.swapPending = false
  errAlloc_eq : s.errAlloc = s.cfg.allocFails
  errAlloc_running : s.errAlloc = true → s.running = false
  errAlloc_idle : s.errAlloc = true → s.host = .idle
  pending_waits : s.swapPending = true → ∃ copy, s.host = .waiting copy
  waiting_double : ∀ copy, s.host = .waiting copy → s.cfg.dbuf = true
  busy_legal : ∀ ms, s.host = .busy ms → ∀ u ∈ ms, u.legal s.cfg s.back
  ram_wf : Memory.wf s.ram
  ram_extent : ∀ c ∈ s.ram, c.1 < s.cfg.ramSize

/-! ### Runs -/

/-- `n` steps of the machine, stopping at the first fault or refusal. -/
def run (n : Nat) (s : State) : Outcome := Host.Core.run core n s

/-- `n` tick events in a row. -/
def ticks : Nat → State → State
  | 0, s => s
  | n + 1, s => ticks n (takeTick s)

/-- No tick event falls inside the next `k` micro-operations of the host (R62). -/
def Uninterrupted (s : State) (k : Nat) : Prop := ∀ n rest, s.inputs = .tick n :: rest → k ≤ n

/-- The RAM when the host has done what is left of its preempted command; ticks write no RAM (R52). -/
def State.settledRam (s : State) : Memory :=
  match s.host with
  | .busy ms => runAll ms s.ram
  | _ => s.ram

/-- The events a step or a run has added to the trace. -/
def newEvents (s t : State) : List OutEvent := t.events.drop s.events.length

/-- The durations of the TIMER events of a trace. -/
def timerDurations (es : List OutEvent) : List Nat :=
  es.filterMap fun e => match e with | .timer d => some d | _ => none

/-- The colour-line values of a trace, in order. -/
def colours (es : List OutEvent) : List ColourLines :=
  es.filterMap fun e => match e with | .rgb m => some m | _ => none

/-- The byte every column of a filled region has in stride `j` (the three formulas of R144). -/
def fillByte (v : Rgb444) (j : Nat) : Byte :=
  if j = 0 then
    bitAt v.r 1 2 ||| bitAt v.g 1 3 ||| bitAt v.b 1 4 ||| (bitAt v.r 1 5 ||| bitAt v.g 1 6 ||| bitAt v.b 1 7) |||
      bitAt v.b 0 1 ||| bitAt v.g 0 0
  else if j = 1 then
    bitAt v.r 2 2 ||| bitAt v.g 2 3 ||| bitAt v.b 2 4 ||| (bitAt v.r 2 5 ||| bitAt v.g 2 6 ||| bitAt v.b 2 7) |||
      bitAt v.r 0 1 ||| bitAt v.b 0 0
  else
    bitAt v.r 3 2 ||| bitAt v.g 3 3 ||| bitAt v.b 3 4 ||| (bitAt v.r 3 5 ||| bitAt v.g 3 6 ||| bitAt v.b 3 7) |||
      bitAt v.g 0 1 ||| bitAt v.r 0 0

/-- The time a channel value is lit in one frame of its row: `sum over p with v[p] = 1 of B << p` (R195). -/
def litTime (c : Config) (v : BitVec 4) : Nat :=
  ((List.finRange 4).map fun p => if v.getLsbD p.val then interval c p else 0).sum

/-- The column data of one slice, in column order (R190). -/
def slice (c : Config) (m : Memory) (k : Region) (row : Nat) (p : Plane) : List ColourLines :=
  (List.range c.width).map (colMask c m k row p)

/-! ### The order of a tick's events (R258) -/

/-- The monitor of R258. It follows whether the output is lit, whether the latch is raised, whether the clock was lowered
since the latch was raised, and whether colour lines wait to be clocked. It refuses: raising the latch, changing the
address or programming the timer while lit; unblanking before the latch has been raised; driving colours with the latch
raised or the clock not lowered; a pulse with no colour value before it. -/
def orderOk (lit latch low driven : Bool) : List OutEvent → Bool
  | [] => true
  | .oe b :: es => (!b || latch) && orderOk b latch low driven es
  | .lat true :: es => !lit && orderOk lit true false driven es
  | .lat false :: es => orderOk lit false low driven es
  | .clkLow :: es => orderOk lit latch true driven es
  | .addr _ :: es => !lit && latch && orderOk lit latch low driven es
  | .timer _ :: es => !lit && latch && orderOk lit latch low driven es
  | .rgb _ :: es => !latch && low && !driven && orderOk lit latch low true es
  | .clkPulse :: es => driven && !latch && orderOk lit latch low false es
  | .irqReg :: es => orderOk lit latch low driven es

/-! ### The panel behind the boundary (R31, R192; notes/assumptions/21.md) -/

/-- An observer of the panel: its shift register, its output latch, whether it is lit, the row it is addressed at, and the
levels of its colour lines. -/
structure Panel where
  shift : List ColourLines
  latched : List ColourLines
  lit : Bool
  row : Nat
  lines : ColourLines
  deriving DecidableEq, Repr

/-- What one output event does to the panel: LAT(1) latches the shift register, a pulse shifts the colour lines in at the
end and the oldest value out. -/
def Panel.observe (p : Panel) : OutEvent → Panel
  | .addr i => { p with row := i }
  | .rgb m => { p with lines := m }
  | .clkPulse => { p with shift := (p.shift ++ [p.lines]).drop 1 }
  | .oe b => { p with lit := b }
  | .lat true => { p with latched := p.shift }
  | .lat false => p
  | .timer _ => p
  | .clkLow => p
  | .irqReg => p

/-- What a trace does to the panel. -/
def Panel.observeAll (p : Panel) (es : List OutEvent) : Panel := es.foldl Panel.observe p

end Sys2Proof.Machine
end

