-- ==== Sys2Proof/Certificates/Slice0/Obligations.lean ====
section
/-! DEFINITION. The statements for the provers, each a claim about the machine for every instance (`Config`) and every
state that meets its hypotheses. A docstring names the rule of spec/ a statement formalises, and, where the rule rests on a
decision of the spec or a choice of the model, that decision or log entry. -/

open Sys2Proof Sys2Proof.Machine

/-! ### Reset and the invariant -/

/-- R34, R251: every register's value after reset, for every instance. `front` and the five line registers are the
spec's decision D11 (notes/assumptions/14.md); that `State.reset` is the instance of program P3, and the empty inputs, are
the model's choice
(notes/assumptions/2.md, 5.md). -/
def Obligations.ResetLeavesEveryRegisterAtItsResetValue : Prop :=
  (∀ c : Config, let s := State.resetOf c
    s.cfg = c ∧ s.row = c.nrows - 1 ∧ s.plane = 3 ∧ s.front = (if c.dbuf then 1 else 0) ∧
    s.back = 0 ∧ s.swapPending = false ∧ s.running = false ∧
    (s.errAlloc = true ↔ c.ramBytes < c.nbuf * (c.width * c.nrows * 3)) ∧
    s.oe = false ∧ s.lat = false ∧ s.clk = false ∧ s.addr = 0 ∧ s.rgb = 0#6 ∧ (∀ a, s.readByte a = 0#8) ∧
    s.host = .idle ∧ s.inputs = [] ∧ s.responses = [] ∧ s.events = []) ∧
  State.reset = State.resetOf Config.p3

/-- R24: the reset position, and the first tick of a running instance from it advances to (0, 0) and shifts out row 0,
plane 0. The order of the columns in that shift-out, column 0 first, is decision D9 of R190, from general knowledge
(notes/assumptions/14.md). -/
def Obligations.FirstTickBeginsAFreshCycle : Prop :=
  ∀ (c : Config) (s t : State), c.Legal →
    (State.resetOf c).row = c.nrows - 1 ∧ (State.resetOf c).plane = 3 ∧
    (s.cfg = c → s.row = c.nrows - 1 → s.plane = 3 → s.running = true → exec .tick s = .next t →
      t.row = 0 ∧ t.plane = 0 ∧ colours (newEvents s t) = slice c s.ram t.front 0 0)

/-- The invariant holds after reset, for every legal instance and for `State.reset`. -/
def Obligations.ResetMeetsInvariant : Prop :=
  (∀ c : Config, c.Legal → (State.resetOf c).Inv) ∧ State.reset.Inv

/-- Every step keeps the invariant (R27, R32, R33, R50, R52), from every state that has it. -/
def Obligations.StepKeepsInvariant : Prop :=
  ∀ s t : State, s.Inv → step s = .next t → t.Inv

/-! ### Encodings -/

/-- Worked encodings of R93, and words of R84's table written out from the formats of R81 (decision D2). -/
def Obligations.WorkedWordsDecode : Prop :=
  decodeCommand 0x1000000000000000#64 = .ok .beginCmd ∧
  decodeCommand 0x2003FFFF0005FFFF#64 = .ok (.wrpix .r270 (-1) 5 0xFFFF#16) ∧
  decodeCommand 0x300000000000FFFF#64 = .ok (.fill 0xFFFF#16) ∧
  decodeCommand 0x4000000000000001#64 = .ok (.swap true) ∧
  decodeCommand 0x5000000000004000#64 = .ok (.ldb 64) ∧
  decodeCommand 0x6000000000004005#64 = .ok (.stb 64 0x05#8) ∧
  decodeCommand 0x800000000000ABCD#64 = .ok (.qnt 0xABCD#16) ∧
  decodeCommand 0x9000000000040201#64 = .ok (.c333 4#8 2#8 1#8) ∧
  decodeCommand 0xA0000000000A0706#64 = .ok (.c444 10#8 7#8 6#8) ∧
  decodeCommand 0xB000000001C86432#64 = .ok (.c888 true 200#8 100#8 50#8) ∧
  decodeCommand 0xC0010000012C80C8#64 = .ok (.chsv true 300 128#8 200#8) ∧
  decodeCommand 0xC000FFFFFFFFFFFF#64 = .ok (.chsv false (-1) 255#8 255#8) ∧
  decode (.tickPort 1#1) = some .tick

/-- Decoding the encoding of a well-formed instruction gives it back, every operand at every value its field admits. -/
def Obligations.DecodeInvertsEncode : Prop :=
  ∀ i : Instr, i.wf = true → decode (encode i) = some i

/-- Each signal has one meaning: what decodes is well formed, and encodes to the signal it came from. -/
def Obligations.EncodeInvertsDecode : Prop :=
  ∀ (g : Signal) (i : Instr), decode g = some i → i.wf = true ∧ encode i = g

/-- R84: a word is the command exactly when `w & mask = match`, row by row. -/
def Obligations.WordIsCommandIffItMatchesItsRow : Prop :=
  ∀ w : CommandWord,
    (decodeCommand w = .ok .beginCmd ↔ w &&& 0xFFFFFFFFFFFFFFFF#64 = 0x1000000000000000#64) ∧
    ((∃ r x y c, decodeCommand w = .ok (.wrpix r x y c)) ↔ w &&& 0xFFFC000000000000#64 = 0x2000000000000000#64) ∧
    ((∃ c, decodeCommand w = .ok (.fill c)) ↔ w &&& 0xFFFFFFFFFFFF0000#64 = 0x3000000000000000#64) ∧
    ((∃ c, decodeCommand w = .ok (.swap c)) ↔ w &&& 0xFFFFFFFFFFFFFFFE#64 = 0x4000000000000000#64) ∧
    ((∃ o, decodeCommand w = .ok (.ldb o)) ↔ w &&& 0xFFFFFFFF000000FF#64 = 0x5000000000000000#64) ∧
    ((∃ o d, decodeCommand w = .ok (.stb o d)) ↔ w &&& 0xFFFFFFFF00000000#64 = 0x6000000000000000#64) ∧
    ((∃ c, decodeCommand w = .ok (.qnt c)) ↔ w &&& 0xFFFFFFFFFFFF0000#64 = 0x8000000000000000#64) ∧
    ((∃ r g b, decodeCommand w = .ok (.c333 r g b)) ↔ w &&& 0xFFFFFFFFFF000000#64 = 0x9000000000000000#64) ∧
    ((∃ r g b, decodeCommand w = .ok (.c444 r g b)) ↔ w &&& 0xFFFFFFFFFF000000#64 = 0xA000000000000000#64) ∧
    ((∃ f r g b, decodeCommand w = .ok (.c888 f r g b)) ↔ w &&& 0xFFFFFFFFFE000000#64 = 0xB000000000000000#64) ∧
    ((∃ f h a v, decodeCommand w = .ok (.chsv f h a v)) ↔ w &&& 0xFFFE000000000000#64 = 0xC000000000000000#64)

/-- R88: the word an idle host takes next is refused when its opcode is reserved, and when its opcode is assigned and a
reserved bit of its format is 1 (decision D3). -/
def Obligations.ReservedWordsAreRefused : Prop :=
  ∀ (s : State) (w : CommandWord) (rest : List Input), s.host = .idle → s.inputs = .command w :: rest →
    ((w.extractLsb' 60 4 = 0x0#4 ∨ w.extractLsb' 60 4 = 0x7#4 ∨ w.extractLsb' 60 4 = 0xD#4 ∨
        w.extractLsb' 60 4 = 0xE#4 ∨ w.extractLsb' 60 4 = 0xF#4) → step s = .refused .reservedOpcode) ∧
    ((w.extractLsb' 60 4 = 0x1#4 ∧ w.extractLsb' 0 60 ≠ 0#60 ∨
        w.extractLsb' 60 4 = 0x2#4 ∧ w.extractLsb' 50 10 ≠ 0#10 ∨
        w.extractLsb' 60 4 = 0x3#4 ∧ w.extractLsb' 16 44 ≠ 0#44 ∨
        w.extractLsb' 60 4 = 0x4#4 ∧ w.extractLsb' 1 59 ≠ 0#59 ∨
        w.extractLsb' 60 4 = 0x5#4 ∧ (w.extractLsb' 32 28 ≠ 0#28 ∨ w.extractLsb' 0 8 ≠ 0#8) ∨
        w.extractLsb' 60 4 = 0x6#4 ∧ w.extractLsb' 32 28 ≠ 0#28 ∨
        w.extractLsb' 60 4 = 0x8#4 ∧ w.extractLsb' 16 44 ≠ 0#44 ∨
        w.extractLsb' 60 4 = 0x9#4 ∧ w.extractLsb' 24 36 ≠ 0#36 ∨
        w.extractLsb' 60 4 = 0xA#4 ∧ w.extractLsb' 24 36 ≠ 0#36 ∨
        w.extractLsb' 60 4 = 0xB#4 ∧ w.extractLsb' 25 35 ≠ 0#35 ∨
        w.extractLsb' 60 4 = 0xC#4 ∧ w.extractLsb' 49 11 ≠ 0#11) → step s = .refused .reservedBits)

/-! ### The step -/

/-- A step runs the decoded instruction: an idle host's next command word with the word taken off the port; a tick event
at the head of the inputs between commands, one due inside a preempted command, and every one while a SWAP still waits; the
rest of a preempted command when no tick is due; the end of a SWAP's wait when the flag is cleared and no tick is due
before it. The model's choices in it: with the inputs exhausted and the host idle the step is a tick event
(notes/assumptions/6.md); the count in a tick's entry says how many micro-operations come before it
(notes/assumptions/7.md); while a SWAP waits with the flag set the step is a tick event though none is queued, and a queued
command word stays (notes/assumptions/6.md, 9.md). -/
def Obligations.StepRunsTheNextEvent : Prop :=
  ∀ (s : State) (w : CommandWord) (i : Instr) (n : Nat) (rest : List Input) (ms : List Micro) (copy : Bool),
    (s.host = .idle → s.inputs = .command w :: rest → decode (.command w) = some i →
      step s = exec i (s.withInputs rest)) ∧
    (s.host = .idle → s.inputs = .tick n :: rest → step s = exec .tick (s.withInputs rest)) ∧
    (s.host = .idle → s.inputs = [] → step s = exec .tick s) ∧
    (s.host = .busy ms → s.inputs = .tick 0 :: rest → step s = exec .tick (s.withInputs rest)) ∧
    (s.host = .busy ms → s.inputs = .tick (n + 1) :: rest → step s = .next (runHost ms (s.withHost .idle))) ∧
    (s.host = .busy ms → (s.inputs = [] ∨ s.inputs = .command w :: rest) →
      step s = .next (s.withRam (runAll ms s.ram) |>.withHost .idle)) ∧
    (s.host = .waiting copy → s.swapPending = true → s.inputs = .tick n :: rest →
      step s = exec .tick (s.withInputs rest)) ∧
    (s.host = .waiting copy → s.swapPending = true → (s.inputs = [] ∨ s.inputs = .command w :: rest) →
      step s = exec .tick s) ∧
    (s.host = .waiting copy → s.swapPending = false → s.inputs = .tick 0 :: rest →
      step s = exec .tick (s.withInputs rest)) ∧
    (s.host = .waiting copy → s.swapPending = false →
      (s.inputs = [] ∨ s.inputs = .command w :: rest ∨ s.inputs = .tick (n + 1) :: rest) →
      step s = .next (resumeSwap copy s))

/-- An instruction placed with `withFetchWord` is the one the next step runs, with nothing else changed but the host
freed to take a command. -/
def Obligations.PlacedWordIsRunNext : Prop :=
  ∀ (s : State) (nbits w : Nat) (i : Instr), decodeTableWord nbits w = some i →
    step (s.withFetchWord nbits w) = exec i (if 8 < nbits then s.withHost .idle else s)

/-! ### Color Codec -/

/-- R110: the quantizer takes `c[15:12]`, `c[10:7]`, `c[4:1]`, which are `c>>12`, `(c>>7)&0xF`, `(c>>1)&0xF`; bits 11,
6:5 and 0 are discarded. -/
def Obligations.QuantizerTakesTopFourBits : Prop :=
  (∀ c : Colour16, quant565 c = ⟨c.extractLsb' 12 4, c.extractLsb' 7 4, c.extractLsb' 1 4⟩ ∧
    (quant565 c).r.toNat = c.toNat >>> 12 ∧ (quant565 c).g.toNat = (c.toNat >>> 7) &&& 0xF ∧
    (quant565 c).b.toNat = (c.toNat >>> 1) &&& 0xF) ∧
  (∀ c d : Colour16, (∀ n, n ≠ 11 → n ≠ 6 → n ≠ 5 → n ≠ 0 → c.getLsbD n = d.getLsbD n) → quant565 c = quant565 d)

/-- QNT responds `{0b0000, r, g, b}` and changes nothing else (R111, R85), on every instance. -/
def Obligations.QntResponds : Prop :=
  ∀ (c : Colour16) (s : State), exec (.qnt c) s =
    .next { s with responses := s.responses ++ [0#4 ++ c.extractLsb' 12 4 ++ c.extractLsb' 7 4 ++ c.extractLsb' 1 4] }

/-- C333 responds the bit-replicated colour16 of the low three bits and changes nothing else; `Quant565` of the response is
`({r3, r3[2]}, {g3, g3[2]}, {b3, b3[2]})` (R113, decision D29). -/
def Obligations.C333Responds : Prop :=
  ∀ (r g b : BitVec 8) (s : State), ∃ v : Response,
    exec (.c333 r g b) s = .next { s with responses := s.responses ++ [v] } ∧
    v = r.extractLsb' 0 3 ++ r.extractLsb' 1 2 ++ g.extractLsb' 0 3 ++ g.extractLsb' 0 3 ++ b.extractLsb' 0 3 ++
      b.extractLsb' 1 2 ∧
    quant565 v = ⟨r.extractLsb' 0 3 ++ r.extractLsb' 2 1, g.extractLsb' 0 3 ++ g.extractLsb' 2 1,
      b.extractLsb' 0 3 ++ b.extractLsb' 2 1⟩

/-- C444 responds the bit-replicated colour16 of the low four bits and changes nothing else; `Quant565` of the response is
`(r4, g4, b4)` (R114, decision D29). -/
def Obligations.C444Responds : Prop :=
  ∀ (r g b : BitVec 8) (s : State), ∃ v : Response,
    exec (.c444 r g b) s = .next { s with responses := s.responses ++ [v] } ∧
    v = r.extractLsb' 0 4 ++ r.extractLsb' 3 1 ++ g.extractLsb' 0 4 ++ g.extractLsb' 2 2 ++ b.extractLsb' 0 4 ++
      b.extractLsb' 3 1 ∧
    quant565 v = ⟨r.extractLsb' 0 4, g.extractLsb' 0 4, b.extractLsb' 0 4⟩

/-- C888 responds the top 5, 6, 5 bits without gamma (decision D30), and with gamma the promotion of the three table
values, for every table; it changes nothing else (R116). White is white with and without gamma on a legal instance. -/
def Obligations.C888Responds : Prop :=
  (∀ (r g b : BitVec 8) (s : State), exec (.c888 false r g b) s =
    .next { s with responses := s.responses ++ [r.extractLsb' 3 5 ++ g.extractLsb' 2 6 ++ b.extractLsb' 3 5] }) ∧
  (∀ (r g b : BitVec 8) (s : State), ∃ v : Response,
    exec (.c888 true r g b) s = .next { s with responses := s.responses ++ [v] } ∧
    quant565 v = ⟨s.cfg.gamma.get r.toFin, s.cfg.gamma.get g.toFin, s.cfg.gamma.get b.toFin⟩ ∧
    v = c444f (quant565 v)) ∧
  (∀ s : State, s.cfg.Legal → exec (.c888 true 255#8 255#8 255#8) s = exec (.c888 false 255#8 255#8 255#8) s)

/-- CHSV responds the colour of R117 to R119 and changes nothing else: the sextant triple (decision D20,
notes/assumptions/14.md), saturation,
value, then the gamma table or the top four bits, then the promotion. -/
def Obligations.ChsvResponds : Prop :=
  ∀ (gflag : Bool) (hue : Int) (sat val : BitVec 8) (s : State) (h lo r8 g8 b8 : Nat),
    (h : Int) = hue % 1536 → lo = h % 256 →
    (r8, g8, b8) = (if h < 256 then (255, lo, 0) else if h < 512 then (255 - lo, 255, 0) else if h < 768 then (0, 255, lo)
      else if h < 1024 then (0, 255 - lo, 255) else if h < 1280 then (lo, 0, 255) else (255, 0, 255 - lo)) →
    let stage : Nat → Nat := fun ch => ((255 - (255 - ch) * (sat.toNat + 1) / 256) * (val.toNat + 1)) / 256
    let four : Nat → BitVec 4 := fun ch =>
      if gflag then s.cfg.gamma.get (BitVec.ofNat 8 (stage ch)).toFin else BitVec.ofNat 4 (stage ch / 16)
    exec (.chsv gflag hue sat val) s =
      .next { s with responses := s.responses ++ [c444f ⟨four r8, four g8, four b8⟩] }

/-- R119's corner cases: the hue counts modulo 1536; saturation 0 at full value without gamma is white; value 0 without
gamma is black, and with gamma the grey of `GAMMA4(0)`, whatever it is. -/
def Obligations.ChsvCornerCases : Prop :=
  ∀ (gflag : Bool) (hue hue' : Int) (sat val : BitVec 8) (s : State),
    (hue % 1536 = hue' % 1536 → exec (.chsv gflag hue sat val) s = exec (.chsv gflag hue' sat val) s) ∧
    exec (.chsv false hue 0#8 255#8) s = .next { s with responses := s.responses ++ [0xFFFF#16] } ∧
    exec (.chsv false hue sat 0#8) s = .next { s with responses := s.responses ++ [0x0000#16] } ∧
    (let g0 := s.cfg.gamma.get 0
     exec (.chsv true hue sat 0#8) s = .next { s with responses := s.responses ++ [c444f ⟨g0, g0, g0⟩] })

/-! ### Coordinates and layout -/

/-- R140: the bounds check against the rotation-adjusted visible area and the four transforms (decision D5,
notes/assumptions/14.md); each is a
bijection from the visible area onto the physical pixels. -/
def Obligations.XformMapsTheVisibleAreaOntoThePanel : Prop :=
  ∀ (c : Config) (rot : Rotation),
    (∀ x y : Int,
      let vw : Int := if rot = .r0 ∨ rot = .r180 then c.width else c.height
      let vh : Int := if rot = .r0 ∨ rot = .r180 then c.height else c.width
      (xform c rot x y = none ↔ x < 0 ∨ x ≥ vw ∨ y < 0 ∨ y ≥ vh) ∧
      ∀ px py, xform c rot x y = some (px, py) → px < c.width ∧ py < c.height ∧
        ((px : Int), (py : Int)) = (match rot with
          | .r0 => (x, y)
          | .r90 => ((c.width : Int) - 1 - y, x)
          | .r180 => ((c.width : Int) - 1 - x, (c.height : Int) - 1 - y)
          | .r270 => (y, (c.height : Int) - 1 - x))) ∧
    (∀ px py, px < c.width → py < c.height → ∃ x y, xform c rot x y = some (px, py)) ∧
    (∀ x y x' y' q, xform c rot x y = some q → xform c rot x' y' = some q → x = x' ∧ y = y')

/-- R57: `Loc` is injective on the physical pixels, channels and planes, and its image is every bit of every byte of a
region (the lower half's weight-1 places are decision D6, notes/assumptions/14.md). -/
def Obligations.LocIsABijectionOntoTheRegionsBits : Prop :=
  ∀ c : Config,
    (∀ px py ch p px' py' ch' p', px < c.width → py < c.height → px' < c.width → py' < c.height →
      loc c px py ch p = loc c px' py' ch' p' → px = px' ∧ py = py' ∧ ch = ch' ∧ p = p') ∧
    (∀ px py ch p, px < c.width → py < c.height → (loc c px py ch p).1 < c.bufSize ∧ (loc c px py ch p).2 < 8) ∧
    (∀ o b, o < c.bufSize → b < 8 → ∃ px py ch p, px < c.width ∧ py < c.height ∧ loc c px py ch p = (o, b))

/-- R141: the three byte updates of `EncodePixel` are bit for bit `SetBit` at `Loc` over the channels and planes; every
other bit of the RAM is unchanged. Three of the places `Loc` names are decision D6 (notes/assumptions/14.md). -/
def Obligations.EncodePixelSetsExactlyItsTwelveBits : Prop :=
  ∀ (c : Config) (k : Region) (px py : Nat) (v : Rgb444) (m : Memory), Memory.wf m → px < c.width → py < c.height →
    (∀ ch p, (Memory.read (runAll (encodePixel c k px py v) m) (fb c k (loc c px py ch p).1)).getLsbD
      (loc c px py ch p).2 = (v.get ch).getLsbD p.val) ∧
    (∀ a b, (∀ ch p, ¬(a = fb c k (loc c px py ch p).1 ∧ b = (loc c px py ch p).2)) →
      (Memory.read (runAll (encodePixel c k px py v) m) a).getLsbD b = (Memory.read m a).getLsbD b)

/-- R151: pixel writes to different pixels commute. -/
def Obligations.PixelWritesCommute : Prop :=
  ∀ (c : Config) (k k' : Region) (px py px' py' : Nat) (v v' : Rgb444) (m : Memory), Memory.wf m →
    px < c.width → py < c.height → px' < c.width → py' < c.height → (k, px, py) ≠ (k', px', py') →
    runAll (encodePixel c k px py v ++ encodePixel c k' px' py' v') m =
      runAll (encodePixel c k' px' py' v' ++ encodePixel c k px py v) m

/-! ### WRPIX and FILL -/

/-- R222: a WRPIX outside the rotation-adjusted visible area changes nothing, and the next command proceeds normally. Which
area is visible under a rotation is decision D5 (notes/assumptions/14.md). -/
def Obligations.WrpixOutOfRangeIsASilentNoOp : Prop :=
  ∀ (s : State) (rot : Rotation) (x y : Int) (color : Colour16), s.errAlloc = false →
    (x < 0 ∨ y < 0 ∨
      (if rot = .r0 ∨ rot = .r180 then x ≥ s.cfg.width ∨ y ≥ s.cfg.height else x ≥ s.cfg.height ∨ y ≥ s.cfg.width)) →
    exec (.wrpix rot x y color) s = .next s

/-- WRPIX of a visible pixel (R143): the pixel decodes to the quantized colour (R150); every other pixel of either region
decodes as before (R151); every byte but the three of its column reads as before; nothing but the RAM changes. -/
def Obligations.WrpixWritesItsPixelAndNothingElse : Prop :=
  ∀ (s : State) (rot : Rotation) (x y : Int) (color : Colour16) (px py : Nat),
    s.errAlloc = false → Memory.wf s.ram → xform s.cfg rot x y = some (px, py) → Uninterrupted s 3 →
    ∃ t, exec (.wrpix rot x y color) s = .next t ∧ t = { s with ram := t.ram } ∧
      decodePixel s.cfg t.ram s.back px py = ⟨color.extractLsb' 12 4, color.extractLsb' 7 4, color.extractLsb' 1 4⟩ ∧
      (∀ k qx qy, qx < s.cfg.width → qy < s.cfg.height → (k, qx, qy) ≠ (s.back, px, py) →
        decodePixel s.cfg t.ram k qx qy = decodePixel s.cfg s.ram k qx qy) ∧
      (∀ a, a ≠ fb s.cfg s.back (baseOffset s.cfg px py) →
        a ≠ fb s.cfg s.back (baseOffset s.cfg px py + s.cfg.width) →
        a ≠ fb s.cfg s.back (baseOffset s.cfg px py + 2 * s.cfg.width) → t.readByte a = s.readByte a)

/-- FILL (R144): every byte of the back region has the value R144's formulas give its stride, 0x00 for colour 0x0000 and
0xFF for 0xFFFF; every byte outside the back region reads as before; nothing but the RAM changes.
In the formulas the places of `b[0]`, `g[0]` and `r[0]` of the lower pixel are decision D6, from general knowledge
(notes/assumptions/14.md). A fill that a tick cuts is `PreemptedDrawingEndsInTheSameRam`. -/
def Obligations.FillSetsEveryByteOfTheBackRegion : Prop :=
  ∀ (s : State) (color : Colour16), s.errAlloc = false → Memory.wf s.ram →
    Uninterrupted s (microCount (fillMicros s.cfg s.back color)) →
    ∃ t, exec (.fill color) s = .next t ∧ t = { s with ram := t.ram } ∧
      (∀ o, o < s.cfg.bufSize → t.regionByte s.back o = fillByte (quant565 color) ((o / s.cfg.width) % 3)) ∧
      (color = 0x0000#16 → ∀ o, o < s.cfg.bufSize → t.regionByte s.back o = 0x00#8) ∧
      (color = 0xFFFF#16 → ∀ o, o < s.cfg.bufSize → t.regionByte s.back o = 0xFF#8) ∧
      (∀ a, ¬inRegion s.cfg s.back a → t.readByte a = s.readByte a)

/-- R152, the fast-fill equivalence: the bulk fills leave the same RAM as filling every pixel individually. -/
def Obligations.FastFillEqualsPixelFill : Prop :=
  ∀ (c : Config) (k : Region) (m : Memory), Memory.wf m →
    runAll (bulkFill c k 0x00#8) m = runAll (pixelFill c k (quant565 0x0000#16)) m ∧
    runAll (bulkFill c k 0xFF#8) m = runAll (pixelFill c k (quant565 0xFFFF#16)) m

/-- R59, R229: wherever ticks cut a WRPIX or a FILL, the command has changed nothing but the RAM, the host phase and the
head of the inputs, the RAM it ends with is that of the whole command, and no byte outside the back region is touched. With
no tick inside it the command is done. A tick inside it does preempt it, precisely: a tick after n micro-operations finds the
first n of the command's byte accesses done and the others still to do. -/
def Obligations.PreemptedDrawingEndsInTheSameRam : Prop :=
  ∀ (s t : State) (i : Instr) (ms : List Micro), s.host = .idle → Memory.wf s.ram →
    ((∃ color, i = .fill color ∧ ms = fillMicros s.cfg s.back color) ∨
     (∃ rot x y color px py, i = .wrpix rot x y color ∧ xform s.cfg rot x y = some (px, py) ∧
        ms = encodePixel s.cfg s.back px py (quant565 color))) →
    exec i s = .next t →
    t = { s with ram := t.ram, host := t.host, inputs := t.inputs } ∧
    t.settledRam = runAll ms s.ram ∧
    (Uninterrupted s ms.length → t.host = .idle ∧ t.inputs = s.inputs ∧ t.ram = runAll ms s.ram) ∧
    (∀ n rest, s.inputs = .tick n :: rest → n < ms.length →
      t.inputs = .tick 0 :: rest ∧ t.host = .busy (ms.drop n) ∧ t.ram = runAll (ms.take n) s.ram) ∧
    (∀ a, ¬inRegion s.cfg s.back a → t.readByte a = s.readByte a)

/-! ### Raw access -/

/-- LDB (R147): responds `{0x00, byte}` of the back region and changes nothing else; an offset outside the buffer is a
fault (decision D16). -/
def Obligations.LdbRespondsAByteOfTheBackRegion : Prop :=
  ∀ (s : State) (off : Nat), s.errAlloc = false →
    (off < s.cfg.width * s.cfg.nrows * 3 → exec (.ldb off) s =
      .next { s with responses := s.responses ++ [0x00#8 ++ s.readByte (s.back.val * s.cfg.bufSize + off)] }) ∧
    (s.cfg.width * s.cfg.nrows * 3 ≤ off → exec (.ldb off) s = .fault .rawOffsetOutside)

/-- STB (R148): the byte at the offset of the back region becomes the datum; every other byte reads as before; nothing but
the RAM changes; an offset outside the buffer is a fault (decision D16). -/
def Obligations.StbWritesAByteOfTheBackRegion : Prop :=
  ∀ (s : State) (off : Nat) (data : Byte), s.errAlloc = false → Memory.wf s.ram →
    (off < s.cfg.width * s.cfg.nrows * 3 → ∃ t, exec (.stb off data) s = .next t ∧ t = { s with ram := t.ram } ∧
      t.readByte (s.back.val * s.cfg.bufSize + off) = data ∧
      ∀ a, a ≠ s.back.val * s.cfg.bufSize + off → t.readByte a = s.readByte a) ∧
    (s.cfg.width * s.cfg.nrows * 3 ≤ off → exec (.stb off data) s = .fault .rawOffsetOutside)

/-- R54: reads have no side effects, so an LDB adds its response and changes nothing else, and a second one gives the same
response; writing the same value twice is the same as writing it once, by STB and at every address of the RAM. -/
def Obligations.ReadsHaveNoSideEffectsAndWritesAreIdempotent : Prop :=
  (∀ (s t : State) (off : Nat), exec (.ldb off) s = .next t → ∃ v,
    t = { s with responses := s.responses ++ [v] } ∧
    exec (.ldb off) t = .next { s with responses := s.responses ++ [v, v] }) ∧
  (∀ (s t u : State) (off : Nat) (data : Byte), Memory.wf s.ram → exec (.stb off data) s = .next t →
    exec (.stb off data) t = .next u → u = t) ∧
  (∀ (m : Memory) (a : Nat) (v : Byte), Memory.wf m →
    Memory.write (Memory.write m a v) a v = Memory.write m a v)

/-- R149: the commands of DUMP, with no tick among them, respond the bytes of the back region in ascending offset, and
change nothing else. -/
def Obligations.DumpRespondsTheBackRegion : Prop :=
  ∀ (s : State), s.cfg.Legal → s.errAlloc = false → s.host = .idle → s.inputs = (dump s.cfg).map inputOf →
    run s.cfg.bufSize s = .next { s with
      inputs := [],
      responses := s.responses ++ (List.range s.cfg.bufSize).map fun o => 0x00#8 ++ s.regionByte s.back o }

/-- R221: with `errAlloc = 1` every memory command is refused (decision D12). -/
def Obligations.MemoryCommandsRefusedWithoutRam : Prop :=
  ∀ s : State, s.errAlloc = true →
    (∀ rot x y color, exec (.wrpix rot x y color) s = .refused .allocationError) ∧
    (∀ color, exec (.fill color) s = .refused .allocationError) ∧
    (∀ copy, exec (.swap copy) s = .refused .allocationError) ∧
    (∀ off, exec (.ldb off) s = .refused .allocationError) ∧
    (∀ off data, exec (.stb off data) s = .refused .allocationError)

/-! ### SWAP -/

/-- R223: a SWAP on an instance with DBUF false sets no flag, does not wait and copies nothing. -/
def Obligations.SwapOnASingleBufferIsANoOp : Prop :=
  ∀ (s : State) (copy : Bool), s.errAlloc = false → s.cfg.dbuf = false → exec (.swap copy) s = .next s

/-- R145: a SWAP on a double-buffered instance sets `swapPending` and the host waits with its operand; nothing else
changes: `front` is toggled by the TICK, not by SWAP. -/
def Obligations.SwapSetsTheFlagAndWaits : Prop :=
  ∀ (s : State) (copy : Bool), s.errAlloc = false → s.cfg.dbuf = true →
    exec (.swap copy) s = .next { s with swapPending := true, host := .waiting copy }

/-- R145, R146: when the flag is cleared the host goes on; with `copy = 1` every byte of the region that is now back
becomes that of the region that is now front, and no other byte changes; no register changes. -/
def Obligations.SwapEndsWithCopyForward : Prop :=
  ∀ s : State, s.cfg.dbuf = true → s.swapPending = false → Memory.wf s.ram →
    (∀ rest, s.inputs ≠ .tick 0 :: rest) →
    (s.host = .waiting false → step s = .next { s with host := .idle }) ∧
    (s.host = .waiting true → Uninterrupted s (2 * s.cfg.bufSize) → ∃ t, step s = .next t ∧
      t = { s with host := .idle, ram := t.ram } ∧
      (∀ o, o < s.cfg.bufSize → t.regionByte s.back o = s.regionByte s.front o ∧
        t.regionByte s.front o = s.regionByte s.front o) ∧
      (∀ a, ¬inRegion s.cfg s.back a → t.readByte a = s.readByte a))

/-- R266: the wait of a SWAP on a running instance. If the position when the flag is set is (r, p), the flag stands and
`front` stays for every tick before the `4*(NROWS-1-r) + (4-p)`-th, which clears it, toggles `front` and exits at (0, 0);
the number is between 1 and `4*NROWS`. Whatever waits at the ports, no command word is taken meanwhile. That each step of
the wait is a tick, queued or not, is the environment's fairness obligation and the model's wait (notes/assumptions/6.md,
9.md). -/
def Obligations.SwapWaitIsBounded : Prop :=
  ∀ (s : State) (copy : Bool) (n : Nat), s.Inv → s.running = true → s.host = .waiting copy → s.swapPending = true →
    n = 4 * (s.cfg.nrows - 1 - s.row) + (4 - s.plane.val) →
    1 ≤ n ∧ n ≤ 4 * s.cfg.nrows ∧
    (∀ k, k < n → ∃ t, run k s = .next t ∧ t.swapPending = true ∧ t.front = s.front ∧ t.host = .waiting copy ∧
      t.ram = s.ram ∧ ∃ taken, s.inputs = taken ++ t.inputs ∧ ∀ x ∈ taken, ∃ j, x = .tick j) ∧
    (∃ t, run n s = .next t ∧ t.swapPending = false ∧ t.front = 1 - s.front ∧ t.row = 0 ∧ t.plane = 0 ∧
      t.host = .waiting copy ∧ t.ram = s.ram ∧
      ∃ taken, s.inputs = taken ++ t.inputs ∧ ∀ x ∈ taken, ∃ j, x = .tick j)

/-- R256, R237: on an instance that is not running a waiting SWAP never ends: every number of steps leaves the flag set
and the host waiting, whatever tick events come (the steps of the wait: notes/assumptions/6.md, 9.md). -/
def Obligations.SwapBeforeBeginNeverEnds : Prop :=
  ∀ (s : State) (copy : Bool) (k : Nat), s.running = false → s.host = .waiting copy → s.swapPending = true →
    ∃ t, run k s = .next t ∧ t.swapPending = true ∧ t.host = .waiting copy ∧ t.running = false ∧ t.ram = s.ram ∧
      t.events = s.events

/-- R146, R62, R229: a copy-forward that a tick cuts has changed nothing but the RAM, the host phase and the head of the
inputs, the RAM it ends with is that of the whole copy, and no byte outside the back region is touched. With no tick inside
it the copy is done. A tick inside it does preempt it, precisely: a tick after n micro-operations, a read and a write for
each byte, finds the first n/2 bytes copied, and when n is odd the next byte read, its write still to do. -/
def Obligations.PreemptedCopyForwardEndsInTheSameRam : Prop :=
  ∀ s t : State, s.cfg.dbuf = true → s.swapPending = false → s.host = .waiting true →
    (∀ rest, s.inputs ≠ .tick 0 :: rest) → step s = .next t →
    let ms := copyForward s.cfg s.front
    t = { s with ram := t.ram, host := t.host, inputs := t.inputs } ∧
    t.settledRam = runAll ms s.ram ∧
    (Uninterrupted s (2 * s.cfg.bufSize) → t.host = .idle ∧ t.inputs = s.inputs ∧ t.ram = runAll ms s.ram) ∧
    (∀ n rest, s.inputs = .tick n :: rest → n < 2 * s.cfg.bufSize →
      t.inputs = .tick 0 :: rest ∧ t.ram = runAll (ms.take (n / 2)) s.ram ∧
      t.host = .busy (if n % 2 = 0 then ms.drop (n / 2)
        else .write (fb s.cfg s.back (n / 2)) (t.regionByte s.front (n / 2)) :: ms.drop (n / 2 + 1))) ∧
    (Memory.wf s.ram → ∀ a, ¬inRegion s.cfg s.back a → t.readByte a = s.readByte a)

/-- R229, R230: while a preempted command is in progress no step, tick or host, changes the RAM it will end with, and no
response is given. A tick that is due leaves the command as it stands, with all its operands, and the RAM. The host's turn
changes nothing but the RAM, the host phase and the head of the inputs. It ends the command when no tick falls inside what is
left of it, and when the next tick comes after n of the micro-operations left it stops, precisely, after those n. In states with the invariant no byte outside the back region
changes. -/
def Obligations.PreemptedCommandKeepsItsFinalRam : Prop :=
  ∀ (s t : State) (ms : List Micro), s.host = .busy ms → step s = .next t →
    t.settledRam = s.settledRam ∧ t.responses = s.responses ∧
    (∀ rest, s.inputs = .tick 0 :: rest → t.host = .busy ms ∧ t.ram = s.ram ∧ t.inputs = rest) ∧
    ((∀ rest, s.inputs ≠ .tick 0 :: rest) →
      t = { s with ram := t.ram, host := t.host, inputs := t.inputs } ∧
      (Uninterrupted s (microCount ms) → t.host = .idle ∧ t.inputs = s.inputs ∧ t.ram = runAll ms s.ram) ∧
      (∀ n rest, s.inputs = .tick n :: rest → n < microCount ms → t.inputs = .tick 0 :: rest ∧
        ∃ left, t.host = .busy left ∧ (left, t.ram) = runSome n ms s.ram ∧ microCount left + n = microCount ms)) ∧
    (s.Inv → ∀ a, ¬inRegion s.cfg s.back a → t.readByte a = s.readByte a)

/-! ### BEGIN and the flags -/

/-- BEGIN (R196): arms the interrupt and emits IRQREG; nothing on a running instance (decision D13); on an instance with
AllocationError no state change and no event (that the host then goes on is notes/assumptions/10.md). -/
def Obligations.BeginArmsTheInterrupt : Prop :=
  ∀ s : State,
    (s.errAlloc = false → s.running = false →
      exec .beginCmd s = .next { s with running := true, events := s.events ++ [.irqReg] }) ∧
    (s.errAlloc = false → s.running = true → exec .beginCmd s = .next s) ∧
    (s.errAlloc = true → exec .beginCmd s = .next s)

/-- R28: `running` is 0 at reset, BEGIN sets it to 1 (on an instance that has its RAM), no step clears it, and while it
is 0 tick events have no effect. -/
def Obligations.RunningIsSetByBeginAndNeverCleared : Prop :=
  (∀ c, (State.resetOf c).running = false) ∧
  (∀ s, s.errAlloc = false → ∃ t, exec .beginCmd s = .next t ∧ t.running = true) ∧
  (∀ s t, step s = .next t → s.running = true → t.running = true) ∧
  (∀ s, s.running = false → exec .tick s = .next s)

/-- R7, R29: no step changes the instance's parameters or `errAlloc`, and only BEGIN can make `running` 1. -/
def Obligations.ParametersAndErrAllocNeverChange : Prop :=
  ∀ s t : State, step s = .next t → t.cfg = s.cfg ∧ t.errAlloc = s.errAlloc ∧
    (s.running = false → t.running = true → ∃ w rest, s.inputs = .command w :: rest ∧ decodeCommand w = .ok .beginCmd)

/-- R36: no host command, and no step in which the host goes on with one, changes `row`, `plane`, `front` or an output line;
a command changes `swapPending` and `running` to 1 only; only BEGIN touches the event trace; the RAM is written in the back
region only. Of `exec` alone only WRPIX, FILL and STB write the RAM: that is the model's split of SWAP
(notes/assumptions/9.md), whose copy-forward is a step in which the host goes on. -/
def Obligations.HostCommandsKeepTheRefreshRegisters : Prop :=
  (∀ (i : Instr) (s t : State), i ≠ .tick → exec i s = .next t →
    t.row = s.row ∧ t.plane = s.plane ∧ t.front = s.front ∧ t.oe = s.oe ∧ t.lat = s.lat ∧ t.clk = s.clk ∧
    t.addr = s.addr ∧ t.rgb = s.rgb ∧ t.freeCount = s.freeCount ∧
    (t.swapPending = s.swapPending ∨ t.swapPending = true ∧ ∃ copy, i = .swap copy) ∧
    (t.running = s.running ∨ t.running = true ∧ i = .beginCmd) ∧
    (t.events = s.events ∨ i = .beginCmd) ∧
    (t.ram = s.ram ∨ (∃ rot x y c, i = .wrpix rot x y c) ∨ (∃ c, i = .fill c) ∨ ∃ o d, i = .stb o d) ∧
    (Memory.wf s.ram → ∀ a, ¬inRegion s.cfg s.back a → t.readByte a = s.readByte a)) ∧
  (∀ s t : State, s.host ≠ .idle → tickDue s = false → step s = .next t →
    t.row = s.row ∧ t.plane = s.plane ∧ t.front = s.front ∧ t.oe = s.oe ∧ t.lat = s.lat ∧ t.clk = s.clk ∧
    t.addr = s.addr ∧ t.rgb = s.rgb ∧ t.freeCount = s.freeCount ∧ t.swapPending = s.swapPending ∧
    t.running = s.running ∧ t.errAlloc = s.errAlloc ∧ t.cfg = s.cfg ∧ t.events = s.events ∧
    t.responses = s.responses ∧
    (s.Inv → ∀ a, ¬inRegion s.cfg s.back a → t.readByte a = s.readByte a))

/-! ### TICK -/

/-- R180: a tick event while `running = 0` changes nothing and emits nothing (decision D24). -/
def Obligations.TickBeforeBeginDoesNothing : Prop :=
  ∀ s : State, s.running = false → exec .tick s = .next s

/-- TICK on a running instance (R191), complete: the new position, the swap at the frame boundary, the lines, the trace in
order, and the frame. The clock's level after the last pulse is a free value (U9), of which nothing is said.
The places of ADDR and TIMER are decision D8 and the column order is decision D9 (notes/assumptions/14.md). -/
def Obligations.TickRunsThePerTickProtocol : Prop :=
  ∀ s : State, s.running = true → 1 ≤ s.cfg.width → ∃ t, exec .tick s = .next t ∧
    t.plane.val = (s.plane.val + 1) % 4 ∧
    t.row = (if s.plane = 3 then (if s.cfg.nrows ≤ s.row + 1 then 0 else s.row + 1) else s.row) ∧
    (let wrapped := s.plane = 3 ∧ s.cfg.nrows ≤ s.row + 1
     (wrapped ∧ s.swapPending = true → t.front = 1 - s.front ∧ t.swapPending = false) ∧
     (¬(wrapped ∧ s.swapPending = true) → t.front = s.front ∧ t.swapPending = s.swapPending)) ∧
    t.oe = true ∧ t.lat = false ∧ t.addr = (if t.plane = 1 then t.row else s.addr) ∧
    t.rgb = colMask s.cfg s.ram t.front t.row t.plane (s.cfg.width - 1) ∧
    t.events = s.events ++ ([.oe false, .lat true, .clkLow] ++ (if t.plane = 1 then [.addr t.row] else []) ++
      [.timer (s.cfg.baseDuration * 2 ^ s.plane.val), .oe true, .lat false] ++
      (List.range s.cfg.width).flatMap fun i => [.rgb (colMask s.cfg s.ram t.front t.row t.plane i), .clkPulse]) ∧
    t.cfg = s.cfg ∧ t.running = s.running ∧ t.errAlloc = s.errAlloc ∧ t.ram = s.ram ∧ t.host = s.host ∧
    t.inputs = s.inputs ∧ t.responses = s.responses

/-- R184, R185: a TICK wraps `row` to 0 exactly when it enters with plane 3 and the last row, and exits at (0, 0) then and in
no other case; a pending swap happens in that TICK and in no other; the shift-out of that TICK already reads the new front
region (its column order is decision D9, from general knowledge: notes/assumptions/14.md); with NROWS = 1 every plane wrap
wraps `row`; with DBUF false `swapPending` is never 1 and `front` stays 0 (in states with the invariant). -/
def Obligations.SwapHappensOnlyAtTheFrameBoundary : Prop :=
  ∀ s t : State, s.running = true → exec .tick s = .next t →
    (s.plane = 3 ∧ s.cfg.nrows ≤ s.row + 1 ↔ t.row = 0 ∧ t.plane = 0) ∧
    (s.plane = 3 ∧ s.cfg.nrows ≤ s.row + 1 → s.swapPending = true →
      t.row = 0 ∧ t.plane = 0 ∧ t.front = 1 - s.front ∧ t.swapPending = false) ∧
    (¬(s.plane = 3 ∧ s.cfg.nrows ≤ s.row + 1) ∨ s.swapPending = false →
      t.front = s.front ∧ t.swapPending = s.swapPending) ∧
    colours (newEvents s t) = slice s.cfg s.ram t.front t.row t.plane ∧
    (s.cfg.nrows = 1 → s.plane = 3 → t.row = 0 ∧ t.plane = 0 ∧
      (s.swapPending = true → t.front = 1 - s.front ∧ t.swapPending = false)) ∧
    (s.Inv → s.cfg.dbuf = false → s.swapPending = false ∧ t.swapPending = false ∧ t.front = 0)

/-- R188: the TICK re-enables the output and then drops the latch, once each and before the first column: the events OE(1),
LAT(0) in this order, and the registers `oe = 1`, `lat = 0`. That the one TIMER event stands right before them, in the
blanked window, is decision D8, from general knowledge (notes/assumptions/14.md). -/
def Obligations.TickUnblanksThenDropsTheLatch : Prop :=
  ∀ s t : State, s.running = true → exec .tick s = .next t →
    t.oe = true ∧ t.lat = false ∧
    ∃ before d after, newEvents s t = before ++ [.timer d, .oe true, .lat false] ++ after ∧
      (∀ e ∈ before, e ≠ .oe true ∧ e ≠ .lat false ∧ e ≠ .clkPulse ∧ (∀ m, e ≠ .rgb m) ∧ ∀ d', e ≠ .timer d') ∧
      (∀ e ∈ after, e ≠ .oe true ∧ e ≠ .lat false ∧ ∀ d', e ≠ .timer d')

/-- R199: every tick event of a running instance has a step, so the scheduler is never stuck and never final: any number
of ticks in a row, alone at the ports of an idle host, gives a next state that is still running. -/
def Obligations.SchedulerHasNoTerminalState : Prop :=
  ∀ (s : State), s.running = true → (∃ t, exec .tick s = .next t) ∧
    (s.host = .idle → s.inputs = [] → ∀ n, run n s = .next (ticks n s) ∧ (ticks n s).running = true)

/-- R258: the order of a TICK's events, whatever the lines were before: blanked before the latch is raised, address and
timer written while blanked, latch dropped before the first column, clock lowered before the first colour, each colour
before the pulse that shifts it in. The places of ADDR and TIMER are decision D8 (notes/assumptions/14.md). -/
def Obligations.TickKeepsTheEventOrder : Prop :=
  ∀ (s t : State) (lit latch low : Bool), exec .tick s = .next t → orderOk lit latch low false (newEvents s t) = true

/-- R52: a TICK writes no RAM and reads the region that it leaves as front only: other RAM contents that agree with it
there give the same tick. -/
def Obligations.TickReadsOnlyTheFrontRegion : Prop :=
  ∀ (s t : State) (m : Memory), s.row < s.cfg.nrows → exec .tick s = .next t →
    (∀ o, o < s.cfg.bufSize → Memory.read m (fb s.cfg t.front o) = Memory.read s.ram (fb s.cfg t.front o)) →
    t.ram = s.ram ∧ exec .tick { s with ram := m } = .next { t with ram := m }

/-- R153: the colour lines of a column are the plane's bits of its upper and lower pixel (the order of the lines is decision
D7; three of the bit places are decision D6, notes/assumptions/14.md). -/
def Obligations.ColourLinesAreThePlaneBitsOfTheTwoPixels : Prop :=
  ∀ (c : Config) (m : Memory) (k : Region) (row i : Nat) (p : Plane), row < c.nrows → i < c.width →
    let u := decodePixel c m k i row
    let l := decodePixel c m k i (row + c.nrows)
    let v := colMask c m k row p i
    v.getLsbD 0 = u.r.getLsbD p.val ∧ v.getLsbD 1 = u.g.getLsbD p.val ∧ v.getLsbD 2 = u.b.getLsbD p.val ∧
    v.getLsbD 3 = l.r.getLsbD p.val ∧ v.getLsbD 4 = l.g.getLsbD p.val ∧ v.getLsbD 5 = l.b.getLsbD p.val

/-! ### Rules of the whole machine -/

/-- R198: `front` changes only in a step that is a TICK of a running instance with a swap pending, and that leaves
`row = 0` and `plane = 0`. -/
def Obligations.FrontChangesOnlyAtRowZero : Prop :=
  ∀ s t : State, step s = .next t → t.front ≠ s.front →
    t.row = 0 ∧ t.plane = 0 ∧ s.running = true ∧ s.swapPending = true ∧ t.swapPending = false ∧ tickDue s = true

/-- R32, R52: on a double-buffered instance no step writes a byte of the region that is front. -/
def Obligations.NoStepWritesTheFrontRegion : Prop :=
  ∀ s t : State, s.Inv → s.cfg.dbuf = true → step s = .next t →
    ∀ o, o < s.cfg.bufSize → t.regionByte s.front o = s.regionByte s.front o

/-- R194: the position returns after `4 * NROWS` effective ticks, and the intervals programmed in them sum to
`15 * BASE_DURATION * NROWS`. -/
def Obligations.FrameHasFixedPeriodAndDuration : Prop :=
  ∀ s : State, s.running = true → s.row < s.cfg.nrows →
    let t := ticks (4 * s.cfg.nrows) s
    t.row = s.row ∧ t.plane = s.plane ∧
    (timerDurations (newEvents s t)).sum = 15 * s.cfg.baseDuration * s.cfg.nrows

/-- R195: the lit time of a channel value in one frame of its row is `BASE_DURATION * v`, strictly increasing in `v`. -/
def Obligations.LitTimeIsProportionalToTheValue : Prop :=
  ∀ c : Config, (∀ v : BitVec 4, litTime c v = c.baseDuration * v.toNat) ∧
    (c.Legal → ∀ v w : BitVec 4, v.toNat < w.toNat → litTime c v < litTime c w)

/-- R192, R193, R257: from plane 3 (the reset position), with any panel contents, from the second tick on the panel is
lit, addressed at the row, and showing the slice that the tick before shifted out, read from the region then in front.
The panel is an observer of the trace, outside the machine (notes/assumptions/21.md); the order of the columns in what it
shows is decision D9, from general knowledge (notes/assumptions/14.md). -/
def Obligations.PanelShowsTheFrontFromTheSecondTick : Prop :=
  ∀ (s : State) (pn : Panel) (n : Nat), s.running = true → s.row < s.cfg.nrows → s.plane = 3 →
    pn.shift.length = s.cfg.width →
    let s1 := ticks (n + 1) s
    let s2 := ticks (n + 2) s
    let shown := pn.observeAll (newEvents s s2)
    shown.lit = true ∧ shown.row = s1.row ∧ shown.latched = slice s.cfg s.ram s1.front s1.row s1.plane ∧
    shown.shift = slice s.cfg s.ram s2.front s2.row s2.plane

/-- R7: `ADDR_W` is the smallest n >= 1 with `2^n >= NROWS` (decision D21). -/
def Obligations.AddrWIsTheLeastSufficientLineCount : Prop :=
  ∀ c : Config, 1 ≤ addrW c ∧ c.nrows ≤ 2 ^ addrW c ∧ ∀ n, 1 ≤ n → c.nrows ≤ 2 ^ n → addrW c ≤ n
end

