-- ==== Sys2Proof/Laws/State.lean ====
section
/-! SUPPORT. One lemma per field per named update of State, true by rfl (the updates of Machine/Ops.lean and
Machine/Flags.lean). -/

namespace Sys2Proof.Machine

/-! ### `emit` -/

@[simp] theorem State.emit_cfg (s : State) (e : OutEvent) : (s.emit e).cfg = s.cfg := rfl
@[simp] theorem State.emit_row (s : State) (e : OutEvent) : (s.emit e).row = s.row := rfl
@[simp] theorem State.emit_plane (s : State) (e : OutEvent) : (s.emit e).plane = s.plane := rfl
@[simp] theorem State.emit_front (s : State) (e : OutEvent) : (s.emit e).front = s.front := rfl
@[simp] theorem State.emit_swapPending (s : State) (e : OutEvent) : (s.emit e).swapPending = s.swapPending := rfl
@[simp] theorem State.emit_running (s : State) (e : OutEvent) : (s.emit e).running = s.running := rfl
@[simp] theorem State.emit_errAlloc (s : State) (e : OutEvent) : (s.emit e).errAlloc = s.errAlloc := rfl
@[simp] theorem State.emit_oe (s : State) (e : OutEvent) : (s.emit e).oe = s.oe := rfl
@[simp] theorem State.emit_lat (s : State) (e : OutEvent) : (s.emit e).lat = s.lat := rfl
@[simp] theorem State.emit_clk (s : State) (e : OutEvent) : (s.emit e).clk = s.clk := rfl
@[simp] theorem State.emit_addr (s : State) (e : OutEvent) : (s.emit e).addr = s.addr := rfl
@[simp] theorem State.emit_rgb (s : State) (e : OutEvent) : (s.emit e).rgb = s.rgb := rfl
@[simp] theorem State.emit_ram (s : State) (e : OutEvent) : (s.emit e).ram = s.ram := rfl
@[simp] theorem State.emit_host (s : State) (e : OutEvent) : (s.emit e).host = s.host := rfl
@[simp] theorem State.emit_inputs (s : State) (e : OutEvent) : (s.emit e).inputs = s.inputs := rfl
@[simp] theorem State.emit_responses (s : State) (e : OutEvent) : (s.emit e).responses = s.responses := rfl
@[simp] theorem State.emit_events (s : State) (e : OutEvent) : (s.emit e).events = s.events ++ [e] := rfl
@[simp] theorem State.emit_freeCount (s : State) (e : OutEvent) : (s.emit e).freeCount = s.freeCount := rfl

/-! ### `respond` -/

@[simp] theorem State.respond_cfg (s : State) (v : Response) : (s.respond v).cfg = s.cfg := rfl
@[simp] theorem State.respond_row (s : State) (v : Response) : (s.respond v).row = s.row := rfl
@[simp] theorem State.respond_plane (s : State) (v : Response) : (s.respond v).plane = s.plane := rfl
@[simp] theorem State.respond_front (s : State) (v : Response) : (s.respond v).front = s.front := rfl
@[simp] theorem State.respond_swapPending (s : State) (v : Response) : (s.respond v).swapPending = s.swapPending := rfl
@[simp] theorem State.respond_running (s : State) (v : Response) : (s.respond v).running = s.running := rfl
@[simp] theorem State.respond_errAlloc (s : State) (v : Response) : (s.respond v).errAlloc = s.errAlloc := rfl
@[simp] theorem State.respond_oe (s : State) (v : Response) : (s.respond v).oe = s.oe := rfl
@[simp] theorem State.respond_lat (s : State) (v : Response) : (s.respond v).lat = s.lat := rfl
@[simp] theorem State.respond_clk (s : State) (v : Response) : (s.respond v).clk = s.clk := rfl
@[simp] theorem State.respond_addr (s : State) (v : Response) : (s.respond v).addr = s.addr := rfl
@[simp] theorem State.respond_rgb (s : State) (v : Response) : (s.respond v).rgb = s.rgb := rfl
@[simp] theorem State.respond_ram (s : State) (v : Response) : (s.respond v).ram = s.ram := rfl
@[simp] theorem State.respond_host (s : State) (v : Response) : (s.respond v).host = s.host := rfl
@[simp] theorem State.respond_inputs (s : State) (v : Response) : (s.respond v).inputs = s.inputs := rfl
@[simp] theorem State.respond_responses (s : State) (v : Response) : (s.respond v).responses = s.responses ++ [v] := rfl
@[simp] theorem State.respond_events (s : State) (v : Response) : (s.respond v).events = s.events := rfl
@[simp] theorem State.respond_freeCount (s : State) (v : Response) : (s.respond v).freeCount = s.freeCount := rfl

/-! ### `withRam` -/

@[simp] theorem State.withRam_cfg (s : State) (m : Memory) : (s.withRam m).cfg = s.cfg := rfl
@[simp] theorem State.withRam_row (s : State) (m : Memory) : (s.withRam m).row = s.row := rfl
@[simp] theorem State.withRam_plane (s : State) (m : Memory) : (s.withRam m).plane = s.plane := rfl
@[simp] theorem State.withRam_front (s : State) (m : Memory) : (s.withRam m).front = s.front := rfl
@[simp] theorem State.withRam_swapPending (s : State) (m : Memory) : (s.withRam m).swapPending = s.swapPending := rfl
@[simp] theorem State.withRam_running (s : State) (m : Memory) : (s.withRam m).running = s.running := rfl
@[simp] theorem State.withRam_errAlloc (s : State) (m : Memory) : (s.withRam m).errAlloc = s.errAlloc := rfl
@[simp] theorem State.withRam_oe (s : State) (m : Memory) : (s.withRam m).oe = s.oe := rfl
@[simp] theorem State.withRam_lat (s : State) (m : Memory) : (s.withRam m).lat = s.lat := rfl
@[simp] theorem State.withRam_clk (s : State) (m : Memory) : (s.withRam m).clk = s.clk := rfl
@[simp] theorem State.withRam_addr (s : State) (m : Memory) : (s.withRam m).addr = s.addr := rfl
@[simp] theorem State.withRam_rgb (s : State) (m : Memory) : (s.withRam m).rgb = s.rgb := rfl
@[simp] theorem State.withRam_ram (s : State) (m : Memory) : (s.withRam m).ram = m := rfl
@[simp] theorem State.withRam_host (s : State) (m : Memory) : (s.withRam m).host = s.host := rfl
@[simp] theorem State.withRam_inputs (s : State) (m : Memory) : (s.withRam m).inputs = s.inputs := rfl
@[simp] theorem State.withRam_responses (s : State) (m : Memory) : (s.withRam m).responses = s.responses := rfl
@[simp] theorem State.withRam_events (s : State) (m : Memory) : (s.withRam m).events = s.events := rfl
@[simp] theorem State.withRam_freeCount (s : State) (m : Memory) : (s.withRam m).freeCount = s.freeCount := rfl

/-! ### `withHost` -/

@[simp] theorem State.withHost_cfg (s : State) (h : HostPhase) : (s.withHost h).cfg = s.cfg := rfl
@[simp] theorem State.withHost_row (s : State) (h : HostPhase) : (s.withHost h).row = s.row := rfl
@[simp] theorem State.withHost_plane (s : State) (h : HostPhase) : (s.withHost h).plane = s.plane := rfl
@[simp] theorem State.withHost_front (s : State) (h : HostPhase) : (s.withHost h).front = s.front := rfl
@[simp] theorem State.withHost_swapPending (s : State) (h : HostPhase) : (s.withHost h).swapPending = s.swapPending := rfl
@[simp] theorem State.withHost_running (s : State) (h : HostPhase) : (s.withHost h).running = s.running := rfl
@[simp] theorem State.withHost_errAlloc (s : State) (h : HostPhase) : (s.withHost h).errAlloc = s.errAlloc := rfl
@[simp] theorem State.withHost_oe (s : State) (h : HostPhase) : (s.withHost h).oe = s.oe := rfl
@[simp] theorem State.withHost_lat (s : State) (h : HostPhase) : (s.withHost h).lat = s.lat := rfl
@[simp] theorem State.withHost_clk (s : State) (h : HostPhase) : (s.withHost h).clk = s.clk := rfl
@[simp] theorem State.withHost_addr (s : State) (h : HostPhase) : (s.withHost h).addr = s.addr := rfl
@[simp] theorem State.withHost_rgb (s : State) (h : HostPhase) : (s.withHost h).rgb = s.rgb := rfl
@[simp] theorem State.withHost_ram (s : State) (h : HostPhase) : (s.withHost h).ram = s.ram := rfl
@[simp] theorem State.withHost_host (s : State) (h : HostPhase) : (s.withHost h).host = h := rfl
@[simp] theorem State.withHost_inputs (s : State) (h : HostPhase) : (s.withHost h).inputs = s.inputs := rfl
@[simp] theorem State.withHost_responses (s : State) (h : HostPhase) : (s.withHost h).responses = s.responses := rfl
@[simp] theorem State.withHost_events (s : State) (h : HostPhase) : (s.withHost h).events = s.events := rfl
@[simp] theorem State.withHost_freeCount (s : State) (h : HostPhase) : (s.withHost h).freeCount = s.freeCount := rfl

/-! ### `withInputs` -/

@[simp] theorem State.withInputs_cfg (s : State) (l : List Input) : (s.withInputs l).cfg = s.cfg := rfl
@[simp] theorem State.withInputs_row (s : State) (l : List Input) : (s.withInputs l).row = s.row := rfl
@[simp] theorem State.withInputs_plane (s : State) (l : List Input) : (s.withInputs l).plane = s.plane := rfl
@[simp] theorem State.withInputs_front (s : State) (l : List Input) : (s.withInputs l).front = s.front := rfl
@[simp] theorem State.withInputs_swapPending (s : State) (l : List Input) : (s.withInputs l).swapPending = s.swapPending := rfl
@[simp] theorem State.withInputs_running (s : State) (l : List Input) : (s.withInputs l).running = s.running := rfl
@[simp] theorem State.withInputs_errAlloc (s : State) (l : List Input) : (s.withInputs l).errAlloc = s.errAlloc := rfl
@[simp] theorem State.withInputs_oe (s : State) (l : List Input) : (s.withInputs l).oe = s.oe := rfl
@[simp] theorem State.withInputs_lat (s : State) (l : List Input) : (s.withInputs l).lat = s.lat := rfl
@[simp] theorem State.withInputs_clk (s : State) (l : List Input) : (s.withInputs l).clk = s.clk := rfl
@[simp] theorem State.withInputs_addr (s : State) (l : List Input) : (s.withInputs l).addr = s.addr := rfl
@[simp] theorem State.withInputs_rgb (s : State) (l : List Input) : (s.withInputs l).rgb = s.rgb := rfl
@[simp] theorem State.withInputs_ram (s : State) (l : List Input) : (s.withInputs l).ram = s.ram := rfl
@[simp] theorem State.withInputs_host (s : State) (l : List Input) : (s.withInputs l).host = s.host := rfl
@[simp] theorem State.withInputs_inputs (s : State) (l : List Input) : (s.withInputs l).inputs = l := rfl
@[simp] theorem State.withInputs_responses (s : State) (l : List Input) : (s.withInputs l).responses = s.responses := rfl
@[simp] theorem State.withInputs_events (s : State) (l : List Input) : (s.withInputs l).events = s.events := rfl
@[simp] theorem State.withInputs_freeCount (s : State) (l : List Input) : (s.withInputs l).freeCount = s.freeCount := rfl

/-! ### `requestSwap` -/

@[simp] theorem State.requestSwap_cfg (s : State) : (s.requestSwap).cfg = s.cfg := rfl
@[simp] theorem State.requestSwap_row (s : State) : (s.requestSwap).row = s.row := rfl
@[simp] theorem State.requestSwap_plane (s : State) : (s.requestSwap).plane = s.plane := rfl
@[simp] theorem State.requestSwap_front (s : State) : (s.requestSwap).front = s.front := rfl
@[simp] theorem State.requestSwap_swapPending (s : State) : (s.requestSwap).swapPending = true := rfl
@[simp] theorem State.requestSwap_running (s : State) : (s.requestSwap).running = s.running := rfl
@[simp] theorem State.requestSwap_errAlloc (s : State) : (s.requestSwap).errAlloc = s.errAlloc := rfl
@[simp] theorem State.requestSwap_oe (s : State) : (s.requestSwap).oe = s.oe := rfl
@[simp] theorem State.requestSwap_lat (s : State) : (s.requestSwap).lat = s.lat := rfl
@[simp] theorem State.requestSwap_clk (s : State) : (s.requestSwap).clk = s.clk := rfl
@[simp] theorem State.requestSwap_addr (s : State) : (s.requestSwap).addr = s.addr := rfl
@[simp] theorem State.requestSwap_rgb (s : State) : (s.requestSwap).rgb = s.rgb := rfl
@[simp] theorem State.requestSwap_ram (s : State) : (s.requestSwap).ram = s.ram := rfl
@[simp] theorem State.requestSwap_host (s : State) : (s.requestSwap).host = s.host := rfl
@[simp] theorem State.requestSwap_inputs (s : State) : (s.requestSwap).inputs = s.inputs := rfl
@[simp] theorem State.requestSwap_responses (s : State) : (s.requestSwap).responses = s.responses := rfl
@[simp] theorem State.requestSwap_events (s : State) : (s.requestSwap).events = s.events := rfl
@[simp] theorem State.requestSwap_freeCount (s : State) : (s.requestSwap).freeCount = s.freeCount := rfl

/-! ### `armInterrupt` -/

@[simp] theorem State.armInterrupt_cfg (s : State) : (s.armInterrupt).cfg = s.cfg := rfl
@[simp] theorem State.armInterrupt_row (s : State) : (s.armInterrupt).row = s.row := rfl
@[simp] theorem State.armInterrupt_plane (s : State) : (s.armInterrupt).plane = s.plane := rfl
@[simp] theorem State.armInterrupt_front (s : State) : (s.armInterrupt).front = s.front := rfl
@[simp] theorem State.armInterrupt_swapPending (s : State) : (s.armInterrupt).swapPending = s.swapPending := rfl
@[simp] theorem State.armInterrupt_running (s : State) : (s.armInterrupt).running = true := rfl
@[simp] theorem State.armInterrupt_errAlloc (s : State) : (s.armInterrupt).errAlloc = s.errAlloc := rfl
@[simp] theorem State.armInterrupt_oe (s : State) : (s.armInterrupt).oe = s.oe := rfl
@[simp] theorem State.armInterrupt_lat (s : State) : (s.armInterrupt).lat = s.lat := rfl
@[simp] theorem State.armInterrupt_clk (s : State) : (s.armInterrupt).clk = s.clk := rfl
@[simp] theorem State.armInterrupt_addr (s : State) : (s.armInterrupt).addr = s.addr := rfl
@[simp] theorem State.armInterrupt_rgb (s : State) : (s.armInterrupt).rgb = s.rgb := rfl
@[simp] theorem State.armInterrupt_ram (s : State) : (s.armInterrupt).ram = s.ram := rfl
@[simp] theorem State.armInterrupt_host (s : State) : (s.armInterrupt).host = s.host := rfl
@[simp] theorem State.armInterrupt_inputs (s : State) : (s.armInterrupt).inputs = s.inputs := rfl
@[simp] theorem State.armInterrupt_responses (s : State) : (s.armInterrupt).responses = s.responses := rfl
@[simp] theorem State.armInterrupt_events (s : State) : (s.armInterrupt).events = s.events := rfl
@[simp] theorem State.armInterrupt_freeCount (s : State) : (s.armInterrupt).freeCount = s.freeCount := rfl

/-! ### `honourSwap` -/

@[simp] theorem State.honourSwap_cfg (s : State) : s.honourSwap.cfg = s.cfg := by unfold State.honourSwap; split <;> rfl
@[simp] theorem State.honourSwap_row (s : State) : s.honourSwap.row = s.row := by unfold State.honourSwap; split <;> rfl
@[simp] theorem State.honourSwap_plane (s : State) : s.honourSwap.plane = s.plane := by unfold State.honourSwap; split <;> rfl
@[simp] theorem State.honourSwap_running (s : State) : s.honourSwap.running = s.running := by unfold State.honourSwap; split <;> rfl
@[simp] theorem State.honourSwap_errAlloc (s : State) : s.honourSwap.errAlloc = s.errAlloc := by unfold State.honourSwap; split <;> rfl
@[simp] theorem State.honourSwap_oe (s : State) : s.honourSwap.oe = s.oe := by unfold State.honourSwap; split <;> rfl
@[simp] theorem State.honourSwap_lat (s : State) : s.honourSwap.lat = s.lat := by unfold State.honourSwap; split <;> rfl
@[simp] theorem State.honourSwap_clk (s : State) : s.honourSwap.clk = s.clk := by unfold State.honourSwap; split <;> rfl
@[simp] theorem State.honourSwap_addr (s : State) : s.honourSwap.addr = s.addr := by unfold State.honourSwap; split <;> rfl
@[simp] theorem State.honourSwap_rgb (s : State) : s.honourSwap.rgb = s.rgb := by unfold State.honourSwap; split <;> rfl
@[simp] theorem State.honourSwap_ram (s : State) : s.honourSwap.ram = s.ram := by unfold State.honourSwap; split <;> rfl
@[simp] theorem State.honourSwap_host (s : State) : s.honourSwap.host = s.host := by unfold State.honourSwap; split <;> rfl
@[simp] theorem State.honourSwap_inputs (s : State) : s.honourSwap.inputs = s.inputs := by unfold State.honourSwap; split <;> rfl
@[simp] theorem State.honourSwap_responses (s : State) : s.honourSwap.responses = s.responses := by unfold State.honourSwap; split <;> rfl
@[simp] theorem State.honourSwap_events (s : State) : s.honourSwap.events = s.events := by unfold State.honourSwap; split <;> rfl
@[simp] theorem State.honourSwap_freeCount (s : State) : s.honourSwap.freeCount = s.freeCount := by unfold State.honourSwap; split <;> rfl

@[simp] theorem State.honourSwap_front (s : State) :
    s.honourSwap.front = if s.swapPending then 1 - s.front else s.front := by unfold State.honourSwap; split <;> rfl

@[simp] theorem State.honourSwap_swapPending (s : State) : s.honourSwap.swapPending = false := by
  unfold State.honourSwap
  split
  · rfl
  · next h => exact Bool.eq_false_iff.mpr h

/-! ### Reads that look through an update -/

theorem State.back_congr {s t : State} (hc : t.cfg = s.cfg) (hf : t.front = s.front) : t.back = s.back := by
  simp [State.back, hc, hf]

@[simp] theorem State.readByte_withRam (s : State) (m : Memory) (a : Nat) : (s.withRam m).readByte a = Memory.read m a := rfl

/-! ### Reset (R34, R251) -/

@[simp] theorem State.resetOf_cfg (c : Config) : (State.resetOf c).cfg = c := rfl
@[simp] theorem State.resetOf_row (c : Config) : (State.resetOf c).row = c.nrows - 1 := rfl
@[simp] theorem State.resetOf_plane (c : Config) : (State.resetOf c).plane = 3 := rfl
@[simp] theorem State.resetOf_front (c : Config) : (State.resetOf c).front = if c.dbuf then 1 else 0 := rfl
@[simp] theorem State.resetOf_swapPending (c : Config) : (State.resetOf c).swapPending = false := rfl
@[simp] theorem State.resetOf_running (c : Config) : (State.resetOf c).running = false := rfl
@[simp] theorem State.resetOf_errAlloc (c : Config) : (State.resetOf c).errAlloc = c.allocFails := rfl
@[simp] theorem State.resetOf_oe (c : Config) : (State.resetOf c).oe = false := rfl
@[simp] theorem State.resetOf_lat (c : Config) : (State.resetOf c).lat = false := rfl
@[simp] theorem State.resetOf_clk (c : Config) : (State.resetOf c).clk = false := rfl
@[simp] theorem State.resetOf_addr (c : Config) : (State.resetOf c).addr = 0 := rfl
@[simp] theorem State.resetOf_rgb (c : Config) : (State.resetOf c).rgb = 0#6 := rfl
@[simp] theorem State.resetOf_ram (c : Config) : (State.resetOf c).ram = [] := rfl
@[simp] theorem State.resetOf_host (c : Config) : (State.resetOf c).host = .idle := rfl
@[simp] theorem State.resetOf_inputs (c : Config) : (State.resetOf c).inputs = [] := rfl
@[simp] theorem State.resetOf_responses (c : Config) : (State.resetOf c).responses = [] := rfl
@[simp] theorem State.resetOf_events (c : Config) : (State.resetOf c).events = [] := rfl

end Sys2Proof.Machine
end

