-- ==== Sys2Proof/Laws/Memory.lean ====
section
/-! SUPPORT. The laws of the RAM (spec/20_memory.md R50, R54, R61): read after write, the canonical form, and that two
canonical memories that read alike are equal; then the same for lists of micro-operations. -/

namespace Sys2Proof.Machine

/-! ### Reading -/

@[simp] theorem Memory.read_nil (a : Nat) : Memory.read [] a = 0#8 := rfl

theorem Memory.read_cons (b : Nat) (w : Byte) (m : Memory) (a : Nat) :
    Memory.read ((b, w) :: m) a = if b = a then w else Memory.read m a := rfl

theorem Memory.read_eq_zero_of_lt {m : Memory} {a : Nat} (h : ∀ c ∈ m, a < c.1) : Memory.read m a = 0#8 := by
  induction m with
  | nil => rfl
  | cons c m ih =>
    obtain ⟨b, w⟩ := c
    have hb : a < b := h (b, w) (by simp)
    rw [Memory.read_cons, if_neg (by omega)]
    exact ih fun c hc => h c (by simp [hc])

/-- A read after a write, in a canonical memory: the written address gives the written byte, every other address what it
gave before. -/
theorem Memory.read_write {m : Memory} (hm : Memory.wf m) (a : Nat) (v : Byte) (x : Nat) :
    Memory.read (Memory.write m a v) x = if x = a then v else Memory.read m x := by
  induction m with
  | nil =>
    unfold Memory.write
    by_cases hv : v = 0#8
    · simp [hv]
    · rw [if_neg hv, Memory.read_cons]
      by_cases hx : x = a
      · simp [hx]
      · rw [if_neg (fun h => hx h.symm), if_neg hx]
  | cons c m ih =>
    obtain ⟨b, w⟩ := c
    obtain ⟨hp, hz⟩ := hm
    have hlt : ∀ c ∈ m, b < c.1 := (List.pairwise_cons.mp hp).1
    have hm' : Memory.wf m := ⟨(List.pairwise_cons.mp hp).2, fun c hc => hz c (by simp [hc])⟩
    unfold Memory.write
    by_cases hab : a < b
    · rw [if_pos hab]
      have hz' : Memory.read ((b, w) :: m) a = 0#8 :=
        Memory.read_eq_zero_of_lt fun c hc => by
          rcases List.mem_cons.mp hc with rfl | hc
          · exact hab
          · exact Nat.lt_trans hab (hlt c hc)
      by_cases hv : v = 0#8
      · rw [if_pos hv]
        by_cases hx : x = a
        · rw [if_pos hx, hx, hz', hv]
        · rw [if_neg hx]
      · rw [if_neg hv, Memory.read_cons]
        by_cases hx : x = a
        · simp [hx]
        · rw [if_neg (fun h => hx h.symm), if_neg hx]
    · rw [if_neg hab]
      by_cases hab' : a = b
      · subst hab'
        rw [if_pos rfl]
        by_cases hv : v = 0#8
        · rw [if_pos hv, Memory.read_cons]
          by_cases hx : x = a
          · subst hx
            rw [if_pos rfl, hv]
            exact Memory.read_eq_zero_of_lt hlt
          · rw [if_neg hx, if_neg (fun h => hx h.symm)]
        · rw [if_neg hv, Memory.read_cons, Memory.read_cons]
          by_cases hx : x = a
          · simp [hx]
          · rw [if_neg (fun h => hx h.symm), if_neg hx, if_neg (fun h => hx h.symm)]
      · rw [if_neg hab', Memory.read_cons, Memory.read_cons, ih hm']
        by_cases hx : b = x
        · subst hx
          rw [if_pos rfl, if_pos rfl, if_neg (fun h => hab' h.symm)]
        · rw [if_neg hx, if_neg hx]

theorem Memory.read_write_same {m : Memory} (hm : Memory.wf m) (a : Nat) (v : Byte) :
    Memory.read (Memory.write m a v) a = v := by rw [Memory.read_write hm, if_pos rfl]

theorem Memory.read_write_other {m : Memory} (hm : Memory.wf m) {a x : Nat} (v : Byte) (h : x ≠ a) :
    Memory.read (Memory.write m a v) x = Memory.read m x := by rw [Memory.read_write hm, if_neg h]

/-! ### The canonical form -/

theorem Memory.wf_nil : Memory.wf [] := ⟨List.Pairwise.nil, by simp⟩

/-- A listed cell after a write was listed before or is the written one. -/
theorem Memory.mem_write {m : Memory} {a : Nat} {v : Byte} {c : Host.Cell} (h : c ∈ Memory.write m a v) :
    c ∈ m ∨ (c = (a, v) ∧ v ≠ 0#8) := by
  induction m with
  | nil =>
    unfold Memory.write at h
    split at h <;> simp_all
  | cons d m ih =>
    obtain ⟨b, w⟩ := d
    unfold Memory.write at h
    split at h
    · split at h
      · exact .inl h
      · rcases List.mem_cons.mp h with rfl | h
        · exact .inr ⟨rfl, by assumption⟩
        · exact .inl h
    · split at h
      · split at h
        · exact .inl (List.mem_cons_of_mem _ h)
        · rcases List.mem_cons.mp h with rfl | h
          · exact .inr ⟨rfl, by assumption⟩
          · exact .inl (List.mem_cons_of_mem _ h)
      · rcases List.mem_cons.mp h with rfl | h
        · exact .inl (by simp)
        · rcases ih h with h | h
          · exact .inl (List.mem_cons_of_mem _ h)
          · exact .inr h

/-- A write keeps the canonical form. -/
theorem Memory.wf_write {m : Memory} (hm : Memory.wf m) (a : Nat) (v : Byte) : Memory.wf (Memory.write m a v) := by
  refine ⟨?_, fun c hc => ?_⟩
  · obtain ⟨hp, hz⟩ := hm
    induction m with
    | nil =>
      unfold Memory.write
      split <;> simp
    | cons d m ih =>
      obtain ⟨b, w⟩ := d
      obtain ⟨hlt, hp'⟩ := List.pairwise_cons.mp hp
      unfold Memory.write
      by_cases hab : a < b
      · rw [if_pos hab]
        split
        · exact hp
        · refine List.pairwise_cons.mpr ⟨fun c hc => ?_, hp⟩
          rcases List.mem_cons.mp hc with rfl | hc
          · exact hab
          · exact Nat.lt_trans hab (hlt c hc)
      · rw [if_neg hab]
        by_cases hab' : a = b
        · rw [if_pos hab']
          split
          · exact hp'
          · exact List.pairwise_cons.mpr ⟨fun c hc => hab' ▸ hlt c hc, hp'⟩
        · rw [if_neg hab']
          refine List.pairwise_cons.mpr ⟨fun c hc => ?_, ih hp' fun c hc => hz c (by simp [hc])⟩
          rcases Memory.mem_write hc with h | ⟨rfl, _⟩
          · exact hlt c h
          · show b < a
            omega
  · rcases Memory.mem_write hc with h | ⟨rfl, h⟩
    · exact hm.2 c h
    · exact h

/-- A canonical memory is determined by its reads: equal memories are equal data. -/
theorem Memory.ext_of_wf {m n : Memory} (hm : Memory.wf m) (hn : Memory.wf n)
    (h : ∀ a, Memory.read m a = Memory.read n a) : m = n := by
  have head : ∀ {b : Nat} {w : Byte} {m : Memory}, Memory.wf ((b, w) :: m) →
      Memory.wf m ∧ (∀ c ∈ m, b < c.1) ∧ w ≠ 0#8 := fun {b w m} hw =>
    ⟨⟨(List.pairwise_cons.mp hw.1).2, fun c hc => hw.2 c (by simp [hc])⟩, (List.pairwise_cons.mp hw.1).1,
      hw.2 (b, w) (by simp)⟩
  induction m generalizing n with
  | nil =>
    cases n with
    | nil => rfl
    | cons d n =>
      obtain ⟨b, w⟩ := d
      exact absurd (by simpa [Memory.read_cons] using (h b).symm) (head hn).2.2
  | cons c m ih =>
    obtain ⟨b, w⟩ := c
    obtain ⟨hm', hlt, hw⟩ := head hm
    cases n with
    | nil => exact absurd (by simpa [Memory.read_cons] using h b) hw
    | cons d n =>
      obtain ⟨b', w'⟩ := d
      obtain ⟨hn', hlt', hw'⟩ := head hn
      have hb : b = b' := by
        rcases Nat.lt_trichotomy b b' with hlt2 | heq | hlt2
        · have := h b
          rw [Memory.read_cons, if_pos rfl, Memory.read_cons, if_neg (by omega),
            Memory.read_eq_zero_of_lt fun c hc => Nat.lt_trans hlt2 (hlt' c hc)] at this
          exact absurd this hw
        · exact heq
        · have := h b'
          rw [Memory.read_cons, if_neg (by omega), Memory.read_cons, if_pos rfl,
            Memory.read_eq_zero_of_lt fun c hc => Nat.lt_trans hlt2 (hlt c hc)] at this
          exact absurd this.symm hw'
      subst hb
      have hww : w = w' := by simpa [Memory.read_cons] using h b
      subst hww
      congr 1
      refine ih hm' hn' fun a => ?_
      by_cases ha : b = a
      · subst ha
        rw [Memory.read_eq_zero_of_lt hlt, Memory.read_eq_zero_of_lt hlt']
      · simpa [Memory.read_cons, ha] using h a

/-! ### Micro-operations -/

@[simp] theorem runAll_nil (m : Memory) : runAll [] m = m := rfl

@[simp] theorem runAll_cons (u : Micro) (ms : List Micro) (m : Memory) : runAll (u :: ms) m = runAll ms (u.effect m) := rfl

theorem runAll_append (ms ns : List Micro) (m : Memory) : runAll (ms ++ ns) m = runAll ns (runAll ms m) := by
  simp [runAll]

/-- The effect of a micro-operation is one write at its target. -/
theorem Micro.effect_eq_write (u : Micro) (m : Memory) : ∃ v, u.effect m = Memory.write m u.target v := by
  cases u with
  | upd a mask v => exact ⟨_, rfl⟩
  | write a v => exact ⟨_, rfl⟩
  | copy src dst => exact ⟨_, rfl⟩

theorem Micro.wf_effect {m : Memory} (hm : Memory.wf m) (u : Micro) : Memory.wf (u.effect m) := by
  obtain ⟨v, h⟩ := u.effect_eq_write m
  rw [h]
  exact Memory.wf_write hm _ _

/-- Micro-operations keep the canonical form. -/
theorem runAll_wf {m : Memory} (hm : Memory.wf m) (ms : List Micro) : Memory.wf (runAll ms m) := by
  induction ms generalizing m with
  | nil => exact hm
  | cons u ms ih => exact ih (u.wf_effect hm)

/-- A byte no micro-operation writes is unchanged. -/
theorem runAll_read_other {m : Memory} (hm : Memory.wf m) {ms : List Micro} {a : Nat} (h : ∀ u ∈ ms, u.target ≠ a) :
    Memory.read (runAll ms m) a = Memory.read m a := by
  induction ms generalizing m with
  | nil => rfl
  | cons u ms ih =>
    obtain ⟨v, hv⟩ := u.effect_eq_write m
    rw [runAll_cons, ih (u.wf_effect hm) fun u' hu' => h u' (by simp [hu']), hv,
      Memory.read_write_other hm _ (fun he => h u (by simp) he.symm)]

/-- Listed cells after micro-operations were listed before or are targets. -/
theorem runAll_mem {m : Memory} {ms : List Micro} {c : Host.Cell} (h : c ∈ runAll ms m) :
    c ∈ m ∨ ∃ u ∈ ms, c.1 = u.target := by
  induction ms generalizing m with
  | nil => exact .inl h
  | cons u ms ih =>
    rcases ih h with h | ⟨u', hu', he⟩
    · obtain ⟨v, hv⟩ := u.effect_eq_write m
      rw [hv] at h
      rcases Memory.mem_write h with h | ⟨rfl, _⟩
      · exact .inl h
      · exact .inr ⟨u, by simp, rfl⟩
    · exact .inr ⟨u', by simp [hu'], he⟩

/-- Stopping after any number of micro-operations and going on later ends in the same RAM as not stopping. -/
theorem runSome_then_runAll (n : Nat) (ms : List Micro) (m : Memory) :
    runAll (runSome n ms m).1 (runSome n ms m).2 = runAll ms m := by
  induction n generalizing ms m with
  | zero => rfl
  | succ n ih =>
    cases ms with
    | nil => rfl
    | cons u ms => cases u <;> simp [runSome, Micro.step, ih, Micro.effect]

/-- Enough room before the next tick: the list is done. -/
theorem runSome_of_count_le {n : Nat} {ms : List Micro} (h : microCount ms ≤ n) (m : Memory) :
    runSome n ms m = ([], runAll ms m) := by
  induction n generalizing ms m with
  | zero =>
    cases ms with
    | nil => rfl
    | cons u ms => cases u <;> simp [microCount, Micro.cost] at h
  | succ n ih =>
    cases ms with
    | nil => rfl
    | cons u ms =>
      cases u with
      | upd a mask v =>
        simp only [runSome, Micro.step, runAll_cons, Micro.effect]
        exact ih (by simp [microCount, Micro.cost] at h; omega) _
      | write a v =>
        simp only [runSome, Micro.step, runAll_cons, Micro.effect]
        exact ih (by simp [microCount, Micro.cost] at h; omega) _
      | copy src dst =>
        simp only [runSome, Micro.step, runAll_cons, Micro.effect]
        have hc : microCount (.write dst (Memory.read m src) :: ms) ≤ n := by
          simp [microCount, Micro.cost] at h ⊢
          omega
        simpa [Micro.effect] using ih hc m

/-- What is left after `n` micro-operations counts `n` less (R229). -/
theorem microCount_runSome (n : Nat) (ms : List Micro) (m : Memory) :
    microCount (runSome n ms m).1 = microCount ms - n := by
  induction n generalizing ms m with
  | zero => rfl
  | succ n ih =>
    cases ms with
    | nil => simp [runSome, microCount]
    | cons u ms =>
      cases u <;> simp only [runSome, Micro.step, ih, microCount, Micro.cost] <;> omega

/-- A list whose entries count one each counts its length. -/
theorem microCount_of_single {ms : List Micro} (h : ∀ u ∈ ms, u.cost = 1) : microCount ms = ms.length := by
  induction ms with
  | nil => rfl
  | cons u ms ih =>
    rw [microCount, h u (by simp), ih fun v hv => h v (by simp [hv]), List.length_cons, Nat.add_comm]

/-- In a list whose entries count one each, `n` micro-operations are the first `n` entries (R59, R229). -/
theorem runSome_of_single {ms : List Micro} (h : ∀ u ∈ ms, u.cost = 1) (n : Nat) (m : Memory) :
    runSome n ms m = (ms.drop n, runAll (ms.take n) m) := by
  induction n generalizing ms m with
  | zero => rfl
  | succ n ih =>
    cases ms with
    | nil => rfl
    | cons u ms =>
      have hms : ∀ v ∈ ms, v.cost = 1 := fun v hv => h v (by simp [hv])
      cases u with
      | upd a mask v => simpa [runSome, Micro.step, Micro.effect] using ih hms _
      | write a v => simpa [runSome, Micro.step, Micro.effect] using ih hms _
      | copy src dst => simp [Micro.cost] at h

/-- In a list of copies, `n` micro-operations are the first `n / 2` copies, and for an odd `n` the next one's read
(R146). -/
theorem runSome_copies (f g : Nat → Nat) (os : List Nat) (n : Nat) (m : Memory) (h : n < 2 * os.length) :
    runSome n (os.map fun o => .copy (f o) (g o)) m =
      (if n % 2 = 0 then (os.drop (n / 2)).map fun o => .copy (f o) (g o)
       else .write (g (os[n / 2]'(by omega)))
          (Memory.read (runAll ((os.take (n / 2)).map fun o => .copy (f o) (g o)) m) (f (os[n / 2]'(by omega)))) ::
          (os.drop (n / 2 + 1)).map fun o => .copy (f o) (g o),
       runAll ((os.take (n / 2)).map fun o => .copy (f o) (g o)) m) := by
  induction os generalizing n m with
  | nil => simp at h
  | cons o os ih =>
    match n with
    | 0 => rfl
    | 1 => rfl
    | k + 2 =>
      have hk : k < 2 * os.length := by simp only [List.length_cons] at h; omega
      have hd : (k + 2) / 2 = k / 2 + 1 := by omega
      have hm : (k + 2) % 2 = k % 2 := by omega
      simp only [List.map_cons, runSome, Micro.step, ih k _ hk, hd, hm, List.drop_succ_cons, List.take_succ_cons,
        runAll_cons, Micro.effect, List.getElem_cons_succ]

/-- A list of copies counts two for each (R146). -/
theorem microCount_copies (f g : Nat → Nat) (os : List Nat) :
    microCount (os.map fun o => .copy (f o) (g o)) = 2 * os.length := by
  induction os with
  | nil => rfl
  | cons o os ih =>
    simp only [List.map_cons, microCount, Micro.cost, ih, List.length_cons]
    omega

/-- Writing the same value twice is the same as writing it once (R54). -/
theorem Memory.write_write_same {m : Memory} (hm : Memory.wf m) (a : Nat) (v : Byte) :
    Memory.write (Memory.write m a v) a v = Memory.write m a v :=
  Memory.ext_of_wf (Memory.wf_write (Memory.wf_write hm _ _) _ _) (Memory.wf_write hm _ _) fun x => by
    rw [Memory.read_write (Memory.wf_write hm _ _)]
    split
    · next h => rw [h, Memory.read_write_same hm]
    · rfl

end Sys2Proof.Machine
end

