-- ==== Sys2Proof/Laws/Host.lean ====
section
/-! SUPPORT. Everything `runHost`, `needsRam` and `raise` can do: what the host's turn at its micro-operations changes, and
what it leaves alone (spec/20_memory.md R59, R62; spec/60_exceptions.md R221, R224, R229). -/

namespace Sys2Proof.Machine

/-! ### The host's turn -/

/-- The one inversion of `runHost`: either the list is done, or a tick is due and the rest waits in the host phase. -/
theorem runHost_cases (ms : List Micro) (s : State) :
    runHost ms s = s.withRam (runAll ms s.ram) ∨
    ∃ n rest u left m, s.inputs = .tick n :: rest ∧ runSome n ms s.ram = (u :: left, m) ∧
      runHost ms s = ((s.withRam m).withHost (.busy (u :: left))).withInputs (.tick 0 :: rest) := by
  unfold runHost
  split
  · next n rest hin =>
    have hall := runSome_then_runAll n ms s.ram
    split
    · next m hr =>
      rw [hr] at hall
      exact .inl (by rw [← hall]; rfl)
    · next u left m hr => exact .inr ⟨n, rest, u, left, m, hin, hr, rfl⟩
  · exact .inl rfl

/-- A tick inside the list: exactly the `n` micro-operations that come before it are done, the rest waits in the host phase
and the tick is due (R62, R229). -/
theorem runHost_of_tick {n : Nat} {rest : List Input} {ms : List Micro} {s : State} (hin : s.inputs = .tick n :: rest)
    (hn : n < microCount ms) :
    runHost ms s = ((s.withRam (runSome n ms s.ram).2).withHost (.busy (runSome n ms s.ram).1)).withInputs
      (.tick 0 :: rest) := by
  have hcount := microCount_runSome n ms s.ram
  simp only [runHost, hin]
  split
  · next m hr =>
    rw [hr] at hcount
    simp only [microCount] at hcount
    omega
  · next u left m hr => rw [hr]

/-- No tick falls inside: the host does the whole list. -/
theorem runHost_of_uninterrupted {ms : List Micro} {s : State} (h : Uninterrupted s (microCount ms)) :
    runHost ms s = s.withRam (runAll ms s.ram) := by
  unfold runHost
  split
  · next n rest hin => rw [runSome_of_count_le (h n rest hin)]
  · rfl

@[simp] theorem runHost_cfg (ms : List Micro) (s : State) : (runHost ms s).cfg = s.cfg := by
  rcases runHost_cases ms s with h | ⟨_, _, _, _, _, _, _, h⟩ <;> simp [h]

@[simp] theorem runHost_row (ms : List Micro) (s : State) : (runHost ms s).row = s.row := by
  rcases runHost_cases ms s with h | ⟨_, _, _, _, _, _, _, h⟩ <;> simp [h]

@[simp] theorem runHost_plane (ms : List Micro) (s : State) : (runHost ms s).plane = s.plane := by
  rcases runHost_cases ms s with h | ⟨_, _, _, _, _, _, _, h⟩ <;> simp [h]

@[simp] theorem runHost_front (ms : List Micro) (s : State) : (runHost ms s).front = s.front := by
  rcases runHost_cases ms s with h | ⟨_, _, _, _, _, _, _, h⟩ <;> simp [h]

@[simp] theorem runHost_swapPending (ms : List Micro) (s : State) : (runHost ms s).swapPending = s.swapPending := by
  rcases runHost_cases ms s with h | ⟨_, _, _, _, _, _, _, h⟩ <;> simp [h]

@[simp] theorem runHost_running (ms : List Micro) (s : State) : (runHost ms s).running = s.running := by
  rcases runHost_cases ms s with h | ⟨_, _, _, _, _, _, _, h⟩ <;> simp [h]

@[simp] theorem runHost_errAlloc (ms : List Micro) (s : State) : (runHost ms s).errAlloc = s.errAlloc := by
  rcases runHost_cases ms s with h | ⟨_, _, _, _, _, _, _, h⟩ <;> simp [h]

@[simp] theorem runHost_oe (ms : List Micro) (s : State) : (runHost ms s).oe = s.oe := by
  rcases runHost_cases ms s with h | ⟨_, _, _, _, _, _, _, h⟩ <;> simp [h]

@[simp] theorem runHost_lat (ms : List Micro) (s : State) : (runHost ms s).lat = s.lat := by
  rcases runHost_cases ms s with h | ⟨_, _, _, _, _, _, _, h⟩ <;> simp [h]

@[simp] theorem runHost_clk (ms : List Micro) (s : State) : (runHost ms s).clk = s.clk := by
  rcases runHost_cases ms s with h | ⟨_, _, _, _, _, _, _, h⟩ <;> simp [h]

@[simp] theorem runHost_addr (ms : List Micro) (s : State) : (runHost ms s).addr = s.addr := by
  rcases runHost_cases ms s with h | ⟨_, _, _, _, _, _, _, h⟩ <;> simp [h]

@[simp] theorem runHost_rgb (ms : List Micro) (s : State) : (runHost ms s).rgb = s.rgb := by
  rcases runHost_cases ms s with h | ⟨_, _, _, _, _, _, _, h⟩ <;> simp [h]

@[simp] theorem runHost_responses (ms : List Micro) (s : State) : (runHost ms s).responses = s.responses := by
  rcases runHost_cases ms s with h | ⟨_, _, _, _, _, _, _, h⟩ <;> simp [h]

@[simp] theorem runHost_events (ms : List Micro) (s : State) : (runHost ms s).events = s.events := by
  rcases runHost_cases ms s with h | ⟨_, _, _, _, _, _, _, h⟩ <;> simp [h]

@[simp] theorem runHost_freeCount (ms : List Micro) (s : State) : (runHost ms s).freeCount = s.freeCount := by
  rcases runHost_cases ms s with h | ⟨_, _, _, _, _, _, _, h⟩ <;> simp [h]

/-- Wherever ticks stop it, the RAM the host ends with is that of the whole list. -/
theorem runHost_settledRam (ms : List Micro) {s : State} (h : ∀ l, s.host ≠ .busy l) :
    (runHost ms s).settledRam = runAll ms s.ram := by
  rcases runHost_cases ms s with he | ⟨n, rest, u, left, m, _, hr, he⟩
  · rw [he]
    unfold State.settledRam
    split
    · next l hl => exact absurd hl (h l)
    · rfl
  · rw [he]
    have := runSome_then_runAll n ms s.ram
    rw [hr] at this
    exact this

/-- What is left of a list writes where the list writes. -/
theorem runSome_targets {n : Nat} {ms : List Micro} {m : Memory} {u : Micro} (h : u ∈ (runSome n ms m).1) :
    ∃ u' ∈ ms, u'.target = u.target := by
  induction n generalizing ms m with
  | zero => exact ⟨u, h, rfl⟩
  | succ n ih =>
    cases ms with
    | nil => simp [runSome] at h
    | cons v ms =>
      cases v with
      | upd a mask w =>
        obtain ⟨u', hu', he⟩ := ih (by simpa [runSome, Micro.step] using h)
        exact ⟨u', List.mem_cons_of_mem _ hu', he⟩
      | write a w =>
        obtain ⟨u', hu', he⟩ := ih (by simpa [runSome, Micro.step] using h)
        exact ⟨u', List.mem_cons_of_mem _ hu', he⟩
      | copy src dst =>
        obtain ⟨u', hu', he⟩ := ih (by simpa [runSome, Micro.step] using h)
        rcases List.mem_cons.mp hu' with rfl | hu'
        · exact ⟨.copy src dst, by simp, he⟩
        · exact ⟨u', List.mem_cons_of_mem _ hu', he⟩

/-- A part of a list keeps the canonical form. -/
theorem runSome_wf {m : Memory} (hm : Memory.wf m) (n : Nat) (ms : List Micro) : Memory.wf (runSome n ms m).2 := by
  induction n generalizing ms m with
  | zero => exact hm
  | succ n ih =>
    cases ms with
    | nil => exact hm
    | cons v ms =>
      cases v with
      | upd a mask w => exact ih (Memory.wf_write hm _ _) ms
      | write a w => exact ih (Memory.wf_write hm _ _) ms
      | copy src dst => exact ih hm (.write dst (Memory.read m src) :: ms)

/-- Listed cells after some micro-operations were listed before or are targets. -/
theorem runSome_mem {n : Nat} {ms : List Micro} {m : Memory} {c : Host.Cell} (h : c ∈ (runSome n ms m).2) :
    c ∈ m ∨ ∃ u ∈ ms, c.1 = u.target := by
  induction n generalizing ms m with
  | zero => exact .inl h
  | succ n ih =>
    cases ms with
    | nil => exact .inl h
    | cons v ms =>
      have written : ∀ a w, c ∈ (runSome n ms (Memory.write m a w)).2 →
          c ∈ m ∨ c.1 = a ∨ ∃ u ∈ ms, c.1 = u.target := fun a w hc => by
        rcases ih hc with h | h
        · rcases Memory.mem_write h with h | ⟨rfl, _⟩
          · exact .inl h
          · exact .inr (.inl rfl)
        · exact .inr (.inr h)
      have wide : (c ∈ m ∨ c.1 = v.target ∨ ∃ u ∈ ms, c.1 = u.target) → c ∈ m ∨ ∃ u ∈ v :: ms, c.1 = u.target := by
        rintro (h | h | ⟨u, hu, he⟩)
        · exact .inl h
        · exact .inr ⟨v, by simp, h⟩
        · exact .inr ⟨u, by simp [hu], he⟩
      cases v with
      | upd a mask w => exact wide (written a _ h)
      | write a w => exact wide (written a _ h)
      | copy src dst =>
        rcases ih (ms := .write dst (Memory.read m src) :: ms) h with h | ⟨u, hu, he⟩
        · exact .inl h
        · rcases List.mem_cons.mp hu with rfl | hu
          · exact .inr ⟨.copy src dst, by simp, he⟩
          · exact .inr ⟨u, by simp [hu], he⟩

/-- A byte no micro-operation of the list writes is unchanged, however many of them are done. -/
theorem runSome_read_other {m : Memory} (hm : Memory.wf m) {n : Nat} {ms : List Micro} {a : Nat}
    (h : ∀ u ∈ ms, u.target ≠ a) : Memory.read (runSome n ms m).2 a = Memory.read m a := by
  have key := runSome_then_runAll n ms m
  have hleft : ∀ u ∈ (runSome n ms m).1, u.target ≠ a := fun u hu => by
    obtain ⟨u', hu', he⟩ := runSome_targets hu
    exact he ▸ h u' hu'
  have hr := runAll_read_other (runSome_wf hm n ms) hleft
  rw [key, runAll_read_other hm h] at hr
  exact hr.symm

/-- The host's turn keeps the memory's canonical form. -/
theorem runHost_wf {s : State} (hm : Memory.wf s.ram) (ms : List Micro) : Memory.wf (runHost ms s).ram := by
  rcases runHost_cases ms s with h | ⟨n, _, u, left, m, _, hr, h⟩
  · rw [h]
    exact runAll_wf hm ms
  · have hw := runSome_wf hm n ms
    rw [hr] at hw
    rw [h]
    exact hw

/-- The host's turn leaves every byte alone that its micro-operations do not write. -/
theorem runHost_readByte_other {s : State} (hm : Memory.wf s.ram) {ms : List Micro} {a : Nat}
    (h : ∀ u ∈ ms, u.target ≠ a) : (runHost ms s).readByte a = s.readByte a := by
  rcases runHost_cases ms s with he | ⟨n, _, u, left, m, _, hr, he⟩
  · rw [he]
    exact runAll_read_other hm h
  · have hread := runSome_read_other hm (n := n) h
    rw [hr] at hread
    rw [he]
    exact hread

/-! ### Checks and conditions -/

/-- A memory command that gives a next state ran on an instance with RAM, and gave its own effect. -/
theorem needsRam_next {s t : State} {o : Outcome} (h : needsRam s o = .next t) : s.errAlloc = false ∧ o = .next t := by
  unfold needsRam at h
  split at h
  · cases h
  · next he => exact ⟨Bool.eq_false_iff.mpr he, h⟩

@[simp] theorem needsRam_of_ok {s : State} (h : s.errAlloc = false) (o : Outcome) : needsRam s o = o := by
  simp [needsRam, h]

@[simp] theorem needsRam_of_failed {s : State} (h : s.errAlloc = true) (o : Outcome) :
    needsRam s o = .refused .allocationError := by simp [needsRam, h]

/-- A condition changes nothing (R224). -/
@[simp] theorem raise_eq (c : Condition) (s : State) : raise c s = .next s := by cases c <;> rfl

/-- The end of a SWAP's wait changes the RAM, the host phase and, when a tick cuts the copy, the head of the inputs. -/
theorem resumeSwap_cases (copy : Bool) (s : State) :
    resumeSwap copy s = s.withHost .idle ∨
    resumeSwap copy s = runHost (copyForward s.cfg s.front) (s.withHost .idle) := by
  unfold resumeSwap
  split
  · exact .inr rfl
  · exact .inl rfl

end Sys2Proof.Machine
end

