-- ==== Sys2Proof/Laws/Layout.lean ====
section
/-! SUPPORT. Where the micro-operations of a command go: every one stays in its region (spec/20_memory.md R50, R52, R57). -/

namespace Sys2Proof.Machine

theorem fb_eq (c : Config) (k : Region) (o : Nat) : fb c k o = fb c k 0 + o := by simp [fb]

theorem inRegion_fb {c : Config} {k : Region} {o : Nat} (h : o < c.bufSize) : inRegion c k (fb c k o) := by
  rw [inRegion, fb_eq c k o]
  omega

/-- The two regions are disjoint. -/
theorem inRegion_disjoint {c : Config} {k k' : Region} {a : Nat} (h : inRegion c k a) (h' : inRegion c k' a) : k = k' := by
  simp only [inRegion, fb, Nat.add_zero] at h h'
  by_contra hne
  rcases Nat.lt_or_gt_of_ne (fun he => hne (Fin.ext he)) with hlt | hlt
  · have : (k.val + 1) * c.bufSize ≤ k'.val * c.bufSize := Nat.mul_le_mul_right _ hlt
    rw [Nat.add_mul, Nat.one_mul] at this
    omega
  · have : (k'.val + 1) * c.bufSize ≤ k.val * c.bufSize := Nat.mul_le_mul_right _ hlt
    rw [Nat.add_mul, Nat.one_mul] at this
    omega

theorem scanRow_lt {c : Config} {py : Nat} (h : py < c.height) : scanRow c py < c.nrows := by
  unfold scanRow upperHalf
  simp only [Config.height] at h
  split
  · exact of_decide_eq_true ‹_›
  · omega

/-- A visible coordinate is a physical pixel (R140: "always 0 <= px < WIDTH, 0 <= py < HEIGHT"). -/
theorem xform_physical {c : Config} {rot : Rotation} {x y : Int} {px py : Nat} (h : xform c rot x y = some (px, py)) :
    px < c.width ∧ py < c.height := by
  unfold xform at h
  split at h
  · next hv =>
    simp only [Option.some.injEq, Prod.mk.injEq] at h
    obtain ⟨rfl, rfl⟩ := h
    have hv := of_decide_eq_true hv
    cases rot <;> simp only [visibleArea, rotate] at hv ⊢ <;> omega
  · cases h

/-- The last byte of a column is inside the region (R57). -/
theorem column_lt {c : Config} {s px : Nat} (hs : s < c.nrows) (hx : px < c.width) :
    s * c.width * 3 + px + 2 * c.width < c.bufSize := by
  have h1 : (s + 1) * c.width ≤ c.nrows * c.width := Nat.mul_le_mul_right _ hs
  rw [Nat.succ_mul] at h1
  have h2 : c.bufSize = c.nrows * c.width * 3 := by rw [Config.bufSize, Nat.mul_comm c.width]
  omega

/-- A pixel write stays in its region. -/
theorem encodePixel_legal {c : Config} {k : Region} {px py : Nat} (v : Rgb444) (hx : px < c.width) (hy : py < c.height) :
    ∀ u ∈ encodePixel c k px py v, u.legal c k := by
  have hlast : baseOffset c px py + 2 * c.width < c.bufSize := column_lt (scanRow_lt hy) hx
  have h0 : inRegion c k (fb c k (baseOffset c px py)) := inRegion_fb (by omega)
  have h1 : inRegion c k (fb c k (baseOffset c px py + c.width)) := inRegion_fb (by omega)
  have h2 : inRegion c k (fb c k (baseOffset c px py + 2 * c.width)) := inRegion_fb hlast
  intro u hu
  unfold encodePixel at hu
  simp only at hu
  split at hu <;>
  · simp only [List.mem_cons, List.not_mem_nil, or_false] at hu
    rcases hu with rfl | rfl | rfl
    · exact h0
    · exact h1
    · exact h2

/-- A fill stays in its region. -/
theorem fillMicros_legal (c : Config) (k : Region) (color : Colour16) : ∀ u ∈ fillMicros c k color, u.legal c k := by
  have bulk : ∀ v : Byte, ∀ u ∈ bulkFill c k v, u.legal c k := by
    intro v u hu
    simp only [bulkFill, List.mem_map, List.mem_range] at hu
    obtain ⟨o, ho, rfl⟩ := hu
    exact inRegion_fb ho
  intro u hu
  unfold fillMicros at hu
  split at hu
  · exact bulk _ u hu
  · split at hu
    · exact bulk _ u hu
    · simp only [pixelFill, List.mem_flatMap, List.mem_range] at hu
      obtain ⟨py, hy, px, hx, hu⟩ := hu
      exact encodePixel_legal _ hx hy u hu

/-- A copy-forward reads the region it names and writes the other. -/
theorem copyForward_legal (c : Config) (f : Region) : ∀ u ∈ copyForward c f, u.legal c (1 - f) := by
  intro u hu
  simp only [copyForward, List.mem_map, List.mem_range] at hu
  obtain ⟨o, ho, rfl⟩ := hu
  refine ⟨inRegion_fb ho, ?_⟩
  rw [show (1 : Region) - (1 - f) = f from by revert f; decide]
  exact inRegion_fb ho

/-- A legal micro-operation writes the back region. -/
theorem Micro.legal_target {c : Config} {k : Region} {u : Micro} (h : u.legal c k) : inRegion c k u.target := by
  cases u with
  | upd a mask v => exact h
  | write a v => exact h
  | copy src dst => exact h.1

/-- What is left of a list after some micro-operations is as legal as the list. -/
theorem runSome_legal {c : Config} {k : Region} {n : Nat} {ms : List Micro} {m : Memory}
    (h : ∀ u ∈ ms, u.legal c k) : ∀ u ∈ (runSome n ms m).1, u.legal c k := by
  induction n generalizing ms m with
  | zero => exact h
  | succ n ih =>
    cases ms with
    | nil => exact h
    | cons v ms =>
      have hv := h v (by simp)
      have hms : ∀ u ∈ ms, u.legal c k := fun u hu => h u (by simp [hu])
      cases v with
      | upd a mask w => exact ih hms
      | write a w => exact ih hms
      | copy src dst =>
        refine ih (ms := .write dst (Memory.read m src) :: ms) fun u hu => ?_
        rcases List.mem_cons.mp hu with rfl | hu
        · exact hv.1
        · exact hms u hu

/-! ### Every byte access of a drawing command is one micro-operation -/

theorem encodePixel_single (c : Config) (k : Region) (px py : Nat) (v : Rgb444) :
    ∀ u ∈ encodePixel c k px py v, u.cost = 1 := by
  intro u hu
  unfold encodePixel at hu
  simp only at hu
  split at hu <;>
  · simp only [List.mem_cons, List.not_mem_nil, or_false] at hu
    rcases hu with rfl | rfl | rfl <;> rfl

theorem fillMicros_single (c : Config) (k : Region) (color : Colour16) : ∀ u ∈ fillMicros c k color, u.cost = 1 := by
  have bulk : ∀ v : Byte, ∀ u ∈ bulkFill c k v, u.cost = 1 := by
    intro v u hu
    simp only [bulkFill, List.mem_map] at hu
    obtain ⟨o, _, rfl⟩ := hu
    rfl
  intro u hu
  unfold fillMicros at hu
  split at hu
  · exact bulk _ u hu
  · split at hu
    · exact bulk _ u hu
    · simp only [pixelFill, List.mem_flatMap] at hu
      obtain ⟨py, _, px, _, hu⟩ := hu
      exact encodePixel_single _ _ _ _ _ u hu

/-- The host's turn at legal micro-operations leaves every byte outside the back region alone (R52). -/
theorem runHost_readByte_outside {s : State} (hm : Memory.wf s.ram) {c : Config} {k : Region} {ms : List Micro}
    (hl : ∀ u ∈ ms, u.legal c k) {a : Nat} (ha : ¬inRegion c k a) : (runHost ms s).readByte a = s.readByte a :=
  runHost_readByte_other hm fun u hu he => ha (he ▸ Micro.legal_target (hl u hu))

end Sys2Proof.Machine
end

