-- ==== Sys2Proof/Laws/Parameters.lean ====
section
/-! SUPPORT. The free gamma table is exactly a free legal table (spec/40_color_codec.md R115; notes/assumptions/3.md), and the
instance of `State.reset` is legal. -/

namespace Sys2Proof

theorem legalTable_get (f : Nat → BitVec 4) (i : Fin 256) :
    (legalTable f).get i = if i.val = 255 then 15#4 else runningMax f i.val := by
  rw [legalTable, Vector.get_eq_getElem, Vector.getElem_ofFn]

theorem runningMax_succ_ge (f : Nat → BitVec 4) (n : Nat) : (runningMax f n).toNat ≤ (runningMax f (n + 1)).toNat := by
  rw [runningMax]
  split
  · assumption
  · exact Nat.le_refl _

theorem runningMax_mono (f : Nat → BitVec 4) {m n : Nat} (h : m ≤ n) :
    (runningMax f m).toNat ≤ (runningMax f n).toNat := by
  induction h with
  | refl => exact Nat.le_refl _
  | step _ ih => exact Nat.le_trans ih (runningMax_succ_ge f _)

/-- Whatever the seed, the table is legal. -/
theorem legalTable_legal (f : Nat → BitVec 4) : GammaLegal (legalTable f) := by
  refine ⟨fun i j hij => ?_, ?_⟩
  · rw [legalTable_get, legalTable_get]
    by_cases hj : j.val = 255
    · rw [if_pos hj]
      split
      · exact Nat.le_refl _
      · exact Nat.le_of_lt_succ (runningMax f i.val).isLt
    · rw [if_neg hj, if_neg (by have := Fin.le_def.mp hij; omega)]
      exact runningMax_mono f hij
  · rw [legalTable_get]
    rfl

/-- Every legal table is the table of some seed. -/
theorem legalTable_surjective {g : Vector (BitVec 4) 256} (hg : GammaLegal g) : ∃ f, legalTable f = g := by
  let f : Nat → BitVec 4 := fun n => if h : n < 256 then g.get ⟨n, h⟩ else 0#4
  have hf : ∀ n (h : n < 256), runningMax f n = g.get ⟨n, h⟩ := by
    intro n
    induction n with
    | zero =>
      intro h
      simp [runningMax, f]
    | succ n ih =>
      intro h
      have hle := hg.1 ⟨n, by omega⟩ ⟨n + 1, h⟩ (by simp [Fin.le_def])
      rw [runningMax, ih (by omega)]
      simp only [f, dif_pos h]
      rw [if_pos hle]
  refine ⟨f, Vector.ext fun i hi => ?_⟩
  have key : (legalTable f).get ⟨i, hi⟩ = g.get ⟨i, hi⟩ := by
    rw [legalTable_get]
    split
    · next h =>
      have hi' : i = 255 := h
      subst hi'
      exact hg.2.symm
    · exact hf i hi
  simpa [Vector.get] using key

theorem Config.p3_legal : Config.p3.Legal where
  width_pos := by decide
  width_le := by decide
  nrows_pos := by decide
  nrows_le := by decide
  bufSize_le := by decide
  base_pos := by decide
  gamma_legal := legalTable_legal _

end Sys2Proof
end

