-- ==== Sys2Proof/Laws/PerInstr.lean ====
section
/-! SUPPORT. The family EncodingRow: the encoding of an instruction hits its own row of R84's table, one lemma per
constructor of Instr. -/

namespace Sys2Proof

/-- The row of R84's table an instruction belongs to; the tick event has none. -/
def Instr.opcode : Instr → Option Opcode
  | .beginCmd => some .begin_
  | .wrpix _ _ _ _ => some .wrpix
  | .fill _ => some .fill
  | .swap _ => some .swap
  | .ldb _ => some .ldb
  | .stb _ _ => some .stb
  | .qnt _ => some .qnt
  | .c333 _ _ _ => some .c333
  | .c444 _ _ _ => some .c444
  | .c888 _ _ _ _ => some .c888
  | .chsv _ _ _ _ => some .chsv
  | .tick => none

end Sys2Proof

namespace Sys2Proof.Laws.EncodingRow

/-- The encoding of `i` hits the row of its opcode; the tick event is the pattern 1 on the tick port. -/
def Statement (i : Instr) : Prop :=
  match encode i, i.opcode with
  | .command w, some op => ∃ r ∈ opcodeTable, r.opcode = op ∧ r.hits w = true
  | .tickPort b, none => b = 1#1
  | _, _ => False

/-- Masking goes through concatenation field by field. -/
theorem append_masked {n k : Nat} {hi hm hp : BitVec n} {lo lm lp : BitVec k} (h₁ : hi &&& hm = hp) (h₂ : lo &&& lm = lp) :
    (hi ++ lo) &&& (hm ++ lm) = hp ++ lp := by rw [BitVec.and_append, h₁, h₂]

/-- A field whose mask is 0 is free. -/
theorem free {n : Nat} (x : BitVec n) : x &&& 0#n = 0#n := BitVec.and_zero

/-- A row is hit when its masked word is its pattern, the mask and the pattern cut into fields. -/
theorem row_hit {op : Opcode} {pattern mask w pattern' mask' : CommandWord} (hr : ⟨op, pattern, mask⟩ ∈ opcodeTable)
    (hm : mask = mask') (hp : pattern = pattern') (h : w &&& mask' = pattern') :
    ∃ r ∈ opcodeTable, r.opcode = op ∧ r.hits w = true :=
  ⟨_, hr, rfl, by simp only [OpRow.hits, decide_eq_true_eq, hm, hp, h]⟩

theorem beginCmd : Statement .beginCmd :=
  row_hit (pattern := 0x1000000000000000#64) (mask := 0xFFFFFFFFFFFFFFFF#64) (by decide) rfl rfl (by decide)

theorem wrpix (rot : Rotation) (x y : Int) (color : Colour16) : Statement (.wrpix rot x y color) :=
  row_hit (op := .wrpix) (pattern := 0x2000000000000000#64) (mask := 0xFFFC000000000000#64) (by decide)
    (mask' := 0xF#4 ++ BitVec.allOnes 10 ++ 0#2 ++ 0#16 ++ 0#16 ++ 0#16) (pattern' := 0x2#4 ++ 0#10 ++ 0#2 ++ 0#16 ++ 0#16 ++ 0#16)
    (by decide) (by decide)
    (append_masked (append_masked (append_masked (append_masked (append_masked (by decide) (by decide)) (free _)) (free _)) (free _)) (free _))

theorem fill (color : Colour16) : Statement (.fill color) :=
  row_hit (op := .fill) (pattern := 0x3000000000000000#64) (mask := 0xFFFFFFFFFFFF0000#64) (by decide)
    (mask' := 0xF#4 ++ BitVec.allOnes 44 ++ 0#16) (pattern' := 0x3#4 ++ 0#44 ++ 0#16)
    (by decide) (by decide)
    (append_masked (append_masked (by decide) (by decide)) (free _))

theorem swap (copy : Bool) : Statement (.swap copy) :=
  row_hit (op := .swap) (pattern := 0x4000000000000000#64) (mask := 0xFFFFFFFFFFFFFFFE#64) (by decide)
    (mask' := 0xF#4 ++ BitVec.allOnes 59 ++ 0#1) (pattern' := 0x4#4 ++ 0#59 ++ 0#1)
    (by decide) (by decide)
    (append_masked (append_masked (by decide) (by decide)) (free _))

theorem ldb (off : Nat) : Statement (.ldb off) :=
  row_hit (op := .ldb) (pattern := 0x5000000000000000#64) (mask := 0xFFFFFFFF000000FF#64) (by decide)
    (mask' := 0xF#4 ++ BitVec.allOnes 28 ++ 0#24 ++ BitVec.allOnes 8) (pattern' := 0x5#4 ++ 0#28 ++ 0#24 ++ 0#8)
    (by decide) (by decide)
    (append_masked (append_masked (append_masked (by decide) (by decide)) (free _)) (by decide))

theorem stb (off : Nat) (data : Byte) : Statement (.stb off data) :=
  row_hit (op := .stb) (pattern := 0x6000000000000000#64) (mask := 0xFFFFFFFF00000000#64) (by decide)
    (mask' := 0xF#4 ++ BitVec.allOnes 28 ++ 0#24 ++ 0#8) (pattern' := 0x6#4 ++ 0#28 ++ 0#24 ++ 0#8)
    (by decide) (by decide)
    (append_masked (append_masked (append_masked (by decide) (by decide)) (free _)) (free _))

theorem qnt (color : Colour16) : Statement (.qnt color) :=
  row_hit (op := .qnt) (pattern := 0x8000000000000000#64) (mask := 0xFFFFFFFFFFFF0000#64) (by decide)
    (mask' := 0xF#4 ++ BitVec.allOnes 44 ++ 0#16) (pattern' := 0x8#4 ++ 0#44 ++ 0#16)
    (by decide) (by decide)
    (append_masked (append_masked (by decide) (by decide)) (free _))

theorem c333 (r g b : BitVec 8) : Statement (.c333 r g b) :=
  row_hit (op := .c333) (pattern := 0x9000000000000000#64) (mask := 0xFFFFFFFFFF000000#64) (by decide)
    (mask' := 0xF#4 ++ BitVec.allOnes 36 ++ 0#8 ++ 0#8 ++ 0#8) (pattern' := 0x9#4 ++ 0#36 ++ 0#8 ++ 0#8 ++ 0#8)
    (by decide) (by decide)
    (append_masked (append_masked (append_masked (append_masked (by decide) (by decide)) (free _)) (free _)) (free _))

theorem c444 (r g b : BitVec 8) : Statement (.c444 r g b) :=
  row_hit (op := .c444) (pattern := 0xA000000000000000#64) (mask := 0xFFFFFFFFFF000000#64) (by decide)
    (mask' := 0xF#4 ++ BitVec.allOnes 36 ++ 0#8 ++ 0#8 ++ 0#8) (pattern' := 0xA#4 ++ 0#36 ++ 0#8 ++ 0#8 ++ 0#8)
    (by decide) (by decide)
    (append_masked (append_masked (append_masked (append_masked (by decide) (by decide)) (free _)) (free _)) (free _))

theorem c888 (gflag : Bool) (r g b : BitVec 8) : Statement (.c888 gflag r g b) :=
  row_hit (op := .c888) (pattern := 0xB000000000000000#64) (mask := 0xFFFFFFFFFE000000#64) (by decide)
    (mask' := 0xF#4 ++ BitVec.allOnes 35 ++ 0#1 ++ 0#8 ++ 0#8 ++ 0#8) (pattern' := 0xB#4 ++ 0#35 ++ 0#1 ++ 0#8 ++ 0#8 ++ 0#8)
    (by decide) (by decide)
    (append_masked (append_masked (append_masked (append_masked (append_masked (by decide) (by decide)) (free _)) (free _)) (free _)) (free _))

theorem chsv (gflag : Bool) (hue : Int) (sat val : BitVec 8) : Statement (.chsv gflag hue sat val) :=
  row_hit (op := .chsv) (pattern := 0xC000000000000000#64) (mask := 0xFFFE000000000000#64) (by decide)
    (mask' := 0xF#4 ++ BitVec.allOnes 11 ++ 0#1 ++ 0#32 ++ 0#8 ++ 0#8) (pattern' := 0xC#4 ++ 0#11 ++ 0#1 ++ 0#32 ++ 0#8 ++ 0#8)
    (by decide) (by decide)
    (append_masked (append_masked (append_masked (append_masked (append_masked (by decide) (by decide)) (free _)) (free _)) (free _)) (free _))

theorem tick : Statement .tick := rfl

end Sys2Proof.Laws.EncodingRow
end

