-- ==== Sys2Proof/Laws/Tick.lean ====
section
/-! SUPPORT. Everything a TICK does, field by field (spec/42_scheduler.md R182 to R191): first the shift-out, then the
whole protocol. Later proofs cite `tickBody_…` and `takeTick_…` and do not unfold the parts. -/

namespace Sys2Proof.Machine

/-- The events of one column of the shift-out (R190). -/
def columnEvents (c : Config) (m : Memory) (k : Region) (row : Nat) (p : Plane) (i : Nat) : List OutEvent :=
  [.rgb (colMask c m k row p i), .clkPulse]

/-- The events of a whole TICK, in order (R191): interval `d`, new position, region scanned. -/
def tickEvents (c : Config) (m : Memory) (d : Nat) (k : Region) (row : Nat) (p : Plane) : List OutEvent :=
  [.oe false, .lat true, .clkLow] ++ (if p = 1 then [.addr row] else []) ++ [.timer d, .oe true, .lat false] ++
    (List.range c.width).flatMap (columnEvents c m k row p)

/-! ### One column and the shift-out -/

@[simp] theorem shiftColumn_cfg (s : State) (i : Nat) : (shiftColumn s i).cfg = s.cfg := rfl
@[simp] theorem shiftColumn_row (s : State) (i : Nat) : (shiftColumn s i).row = s.row := rfl
@[simp] theorem shiftColumn_plane (s : State) (i : Nat) : (shiftColumn s i).plane = s.plane := rfl
@[simp] theorem shiftColumn_front (s : State) (i : Nat) : (shiftColumn s i).front = s.front := rfl
@[simp] theorem shiftColumn_swapPending (s : State) (i : Nat) : (shiftColumn s i).swapPending = s.swapPending := rfl
@[simp] theorem shiftColumn_running (s : State) (i : Nat) : (shiftColumn s i).running = s.running := rfl
@[simp] theorem shiftColumn_errAlloc (s : State) (i : Nat) : (shiftColumn s i).errAlloc = s.errAlloc := rfl
@[simp] theorem shiftColumn_oe (s : State) (i : Nat) : (shiftColumn s i).oe = s.oe := rfl
@[simp] theorem shiftColumn_lat (s : State) (i : Nat) : (shiftColumn s i).lat = s.lat := rfl
@[simp] theorem shiftColumn_addr (s : State) (i : Nat) : (shiftColumn s i).addr = s.addr := rfl
@[simp] theorem shiftColumn_ram (s : State) (i : Nat) : (shiftColumn s i).ram = s.ram := rfl
@[simp] theorem shiftColumn_host (s : State) (i : Nat) : (shiftColumn s i).host = s.host := rfl
@[simp] theorem shiftColumn_inputs (s : State) (i : Nat) : (shiftColumn s i).inputs = s.inputs := rfl
@[simp] theorem shiftColumn_responses (s : State) (i : Nat) : (shiftColumn s i).responses = s.responses := rfl

theorem shiftColumn_events (s : State) (i : Nat) :
    (shiftColumn s i).events = s.events ++ columnEvents s.cfg s.ram s.front s.row s.plane i := by
  simp [shiftColumn, columnEvents]

/-- The columns leave every field alone but `rgb`, `clk`, `events` and `freeCount`. -/
theorem shiftColumns_frame (l : List Nat) (s : State) :
    let t := l.foldl shiftColumn s
    t.cfg = s.cfg ∧ t.row = s.row ∧ t.plane = s.plane ∧ t.front = s.front ∧ t.swapPending = s.swapPending ∧
    t.running = s.running ∧ t.errAlloc = s.errAlloc ∧ t.oe = s.oe ∧ t.lat = s.lat ∧ t.addr = s.addr ∧ t.ram =
    s.ram ∧ t.host = s.host ∧ t.inputs = s.inputs ∧ t.responses = s.responses := by
  induction l generalizing s with
  | nil => simp
  | cons i l ih => simpa using ih (shiftColumn s i)

@[simp] theorem shiftOut_cfg (s : State) : (shiftOut s).cfg = s.cfg := (shiftColumns_frame _ s).1
@[simp] theorem shiftOut_row (s : State) : (shiftOut s).row = s.row := (shiftColumns_frame _ s).2.1
@[simp] theorem shiftOut_plane (s : State) : (shiftOut s).plane = s.plane := (shiftColumns_frame _ s).2.2.1
@[simp] theorem shiftOut_front (s : State) : (shiftOut s).front = s.front := (shiftColumns_frame _ s).2.2.2.1
@[simp] theorem shiftOut_swapPending (s : State) : (shiftOut s).swapPending = s.swapPending := (shiftColumns_frame _ s).2.2.2.2.1
@[simp] theorem shiftOut_running (s : State) : (shiftOut s).running = s.running := (shiftColumns_frame _ s).2.2.2.2.2.1
@[simp] theorem shiftOut_errAlloc (s : State) : (shiftOut s).errAlloc = s.errAlloc := (shiftColumns_frame _ s).2.2.2.2.2.2.1
@[simp] theorem shiftOut_oe (s : State) : (shiftOut s).oe = s.oe := (shiftColumns_frame _ s).2.2.2.2.2.2.2.1
@[simp] theorem shiftOut_lat (s : State) : (shiftOut s).lat = s.lat := (shiftColumns_frame _ s).2.2.2.2.2.2.2.2.1
@[simp] theorem shiftOut_addr (s : State) : (shiftOut s).addr = s.addr := (shiftColumns_frame _ s).2.2.2.2.2.2.2.2.2.1
@[simp] theorem shiftOut_ram (s : State) : (shiftOut s).ram = s.ram := (shiftColumns_frame _ s).2.2.2.2.2.2.2.2.2.2.1
@[simp] theorem shiftOut_host (s : State) : (shiftOut s).host = s.host := (shiftColumns_frame _ s).2.2.2.2.2.2.2.2.2.2.2.1
@[simp] theorem shiftOut_inputs (s : State) : (shiftOut s).inputs = s.inputs := (shiftColumns_frame _ s).2.2.2.2.2.2.2.2.2.2.2.2.1
@[simp] theorem shiftOut_responses (s : State) : (shiftOut s).responses = s.responses := (shiftColumns_frame _ s).2.2.2.2.2.2.2.2.2.2.2.2.2

theorem shiftColumns_events (l : List Nat) (s : State) :
    (l.foldl shiftColumn s).events = s.events ++ l.flatMap (columnEvents s.cfg s.ram s.front s.row s.plane) := by
  induction l generalizing s with
  | nil => simp
  | cons i l ih => simp [ih, shiftColumn_events]

@[simp] theorem shiftOut_events (s : State) : (shiftOut s).events =
    s.events ++ (List.range s.cfg.width).flatMap (columnEvents s.cfg s.ram s.front s.row s.plane) :=
  shiftColumns_events _ s

/-- With at least one column the colour lines end at the last column's value (R190). -/
theorem shiftOut_rgb {s : State} (h : 1 ≤ s.cfg.width) :
    (shiftOut s).rgb = colMask s.cfg s.ram s.front s.row s.plane (s.cfg.width - 1) := by
  obtain ⟨n, hn⟩ : ∃ n, s.cfg.width = n + 1 := ⟨s.cfg.width - 1, by omega⟩
  have frame := shiftColumns_frame (List.range n) s
  rw [shiftOut, hn, List.range_succ, List.foldl_append]
  simp only [List.foldl_cons, List.foldl_nil, Nat.add_sub_cancel]
  simp only [shiftColumn]
  simp only [frame]

/-! ### The whole TICK -/

@[simp] theorem tickBody_cfg (s : State) : (tickBody s).cfg = s.cfg := by
  simp only [tickBody, shiftOut_cfg, unblank, programTimer, updateRowAddress, advance, blankAndLatch]
  by_cases hb : frameBoundary s.cfg s.row s.plane <;> by_cases hp : nextPlane s.plane = 1 <;> simp [hb, hp]

@[simp] theorem tickBody_row (s : State) : (tickBody s).row = nextRow s.cfg s.row s.plane := by
  simp only [tickBody, shiftOut_row, unblank, programTimer, updateRowAddress, advance, blankAndLatch]
  by_cases hb : frameBoundary s.cfg s.row s.plane <;> by_cases hp : nextPlane s.plane = 1 <;> simp [hb, hp]

@[simp] theorem tickBody_plane (s : State) : (tickBody s).plane = nextPlane s.plane := by
  simp only [tickBody, shiftOut_plane, unblank, programTimer, updateRowAddress, advance, blankAndLatch]
  by_cases hb : frameBoundary s.cfg s.row s.plane <;> by_cases hp : nextPlane s.plane = 1 <;> simp [hb, hp]

@[simp] theorem tickBody_front (s : State) : (tickBody s).front =
    if frameBoundary s.cfg s.row s.plane && s.swapPending then 1 - s.front else s.front := by
  simp only [tickBody, shiftOut_front, unblank, programTimer, updateRowAddress, advance, blankAndLatch]
  by_cases hb : frameBoundary s.cfg s.row s.plane <;> by_cases hp : nextPlane s.plane = 1 <;> simp [hb, hp]

@[simp] theorem tickBody_swapPending (s : State) : (tickBody s).swapPending =
    (s.swapPending && !frameBoundary s.cfg s.row s.plane) := by
  simp only [tickBody, shiftOut_swapPending, unblank, programTimer, updateRowAddress, advance, blankAndLatch]
  by_cases hb : frameBoundary s.cfg s.row s.plane <;> by_cases hp : nextPlane s.plane = 1 <;> simp [hb, hp]

@[simp] theorem tickBody_running (s : State) : (tickBody s).running = s.running := by
  simp only [tickBody, shiftOut_running, unblank, programTimer, updateRowAddress, advance, blankAndLatch]
  by_cases hb : frameBoundary s.cfg s.row s.plane <;> by_cases hp : nextPlane s.plane = 1 <;> simp [hb, hp]

@[simp] theorem tickBody_errAlloc (s : State) : (tickBody s).errAlloc = s.errAlloc := by
  simp only [tickBody, shiftOut_errAlloc, unblank, programTimer, updateRowAddress, advance, blankAndLatch]
  by_cases hb : frameBoundary s.cfg s.row s.plane <;> by_cases hp : nextPlane s.plane = 1 <;> simp [hb, hp]

@[simp] theorem tickBody_oe (s : State) : (tickBody s).oe = true := by
  simp only [tickBody, shiftOut_oe, unblank, programTimer, updateRowAddress, advance, blankAndLatch]

@[simp] theorem tickBody_lat (s : State) : (tickBody s).lat = false := by
  simp only [tickBody, shiftOut_lat, unblank, programTimer, updateRowAddress, advance, blankAndLatch]

@[simp] theorem tickBody_addr (s : State) : (tickBody s).addr =
    if nextPlane s.plane = 1 then nextRow s.cfg s.row s.plane else s.addr := by
  simp only [tickBody, shiftOut_addr, unblank, programTimer, updateRowAddress, advance, blankAndLatch]
  by_cases hb : frameBoundary s.cfg s.row s.plane <;> by_cases hp : nextPlane s.plane = 1 <;> simp [hb, hp]

@[simp] theorem tickBody_ram (s : State) : (tickBody s).ram = s.ram := by
  simp only [tickBody, shiftOut_ram, unblank, programTimer, updateRowAddress, advance, blankAndLatch]
  by_cases hb : frameBoundary s.cfg s.row s.plane <;> by_cases hp : nextPlane s.plane = 1 <;> simp [hb, hp]

@[simp] theorem tickBody_host (s : State) : (tickBody s).host = s.host := by
  simp only [tickBody, shiftOut_host, unblank, programTimer, updateRowAddress, advance, blankAndLatch]
  by_cases hb : frameBoundary s.cfg s.row s.plane <;> by_cases hp : nextPlane s.plane = 1 <;> simp [hb, hp]

@[simp] theorem tickBody_inputs (s : State) : (tickBody s).inputs = s.inputs := by
  simp only [tickBody, shiftOut_inputs, unblank, programTimer, updateRowAddress, advance, blankAndLatch]
  by_cases hb : frameBoundary s.cfg s.row s.plane <;> by_cases hp : nextPlane s.plane = 1 <;> simp [hb, hp]

@[simp] theorem tickBody_responses (s : State) : (tickBody s).responses = s.responses := by
  simp only [tickBody, shiftOut_responses, unblank, programTimer, updateRowAddress, advance, blankAndLatch]
  by_cases hb : frameBoundary s.cfg s.row s.plane <;> by_cases hp : nextPlane s.plane = 1 <;> simp [hb, hp]

/-- The trace of a TICK (R191). -/
theorem tickBody_events (s : State) : (tickBody s).events = s.events ++
    tickEvents s.cfg s.ram (interval s.cfg s.plane) (tickBody s).front (tickBody s).row (tickBody s).plane := by
  rw [tickBody_front, tickBody_row, tickBody_plane]
  simp only [tickBody, shiftOut_events, unblank, programTimer, updateRowAddress, advance, blankAndLatch, tickEvents]
  by_cases hb : frameBoundary s.cfg s.row s.plane <;> by_cases hp : nextPlane s.plane = 1 <;> simp [hb, hp]

/-- A tick event before BEGIN changes nothing (R180). -/
theorem takeTick_of_not_running {s : State} (h : s.running = false) : takeTick s = s := by simp [takeTick, h]

theorem takeTick_of_running {s : State} (h : s.running = true) : takeTick s = tickBody s := by simp [takeTick, h]

@[simp] theorem takeTick_cfg (s : State) : (takeTick s).cfg = s.cfg := by unfold takeTick; split <;> simp
@[simp] theorem takeTick_running (s : State) : (takeTick s).running = s.running := by unfold takeTick; split <;> simp
@[simp] theorem takeTick_errAlloc (s : State) : (takeTick s).errAlloc = s.errAlloc := by unfold takeTick; split <;> simp
@[simp] theorem takeTick_ram (s : State) : (takeTick s).ram = s.ram := by unfold takeTick; split <;> simp
@[simp] theorem takeTick_host (s : State) : (takeTick s).host = s.host := by unfold takeTick; split <;> simp
@[simp] theorem takeTick_inputs (s : State) : (takeTick s).inputs = s.inputs := by unfold takeTick; split <;> simp
@[simp] theorem takeTick_responses (s : State) : (takeTick s).responses = s.responses := by unfold takeTick; split <;> simp

end Sys2Proof.Machine
end

