-- ==== Sys2Proof/Laws/Step.lean ====
section
/-! SUPPORT. Everything a step can do: one inversion of `step` and one of `exec` (spec/00_scope.md R8, R11). -/

namespace Sys2Proof.Machine

/-- A step that gives a next state is a tick event, an idle host's next command, or the host's command in progress. -/
theorem step_cases {s t : State} (h : step s = .next t) :
    (tickDue s = true ∧ t = takeTick (s.withInputs (afterTick s.inputs))) ∨
    (tickDue s = false ∧ s.host = .idle ∧ ∃ w rest i, s.inputs = .command w :: rest ∧ decodeCommand w = .ok i ∧
      exec i (s.withInputs rest) = .next t) ∨
    (tickDue s = false ∧ s.host ≠ .idle ∧ t = resumeHost s) := by
  unfold step at h
  split at h
  · next hd => exact .inl ⟨hd, by simpa [exec, execTick] using h.symm⟩
  · next hd =>
    have hd' : tickDue s = false := Bool.eq_false_iff.mpr hd
    split at h
    · next w rest hh hi =>
      split at h
      · next i hdec => exact .inr (.inl ⟨hd', hh, w, rest, i, hi, hdec, h⟩)
      · cases h
    · next hno =>
      refine .inr (.inr ⟨hd', fun hh => ?_, by simpa using h.symm⟩)
      cases hin : s.inputs with
      | nil => simp [tickDue, hh, hin] at hd'
      | cons x rest =>
        cases x with
        | command w => exact hno w rest hh hin
        | tick n => simp [tickDue, hh, hin] at hd'

/-- A run whose first step gives a next state goes on from it. -/
theorem run_succ {s u : State} (k : Nat) (h : step s = .next u) : run (k + 1) s = run k u := by
  have hcore : core.step s = .next u := h
  simp only [run, Host.Core.run, hcore]
  rfl

/-- While a SWAP waits with the flag set, the step is a tick event, queued or not (R145; notes/assumptions/9.md). -/
theorem step_of_waiting {s : State} {copy : Bool} (hh : s.host = .waiting copy) (hp : s.swapPending = true) :
    step s = .next (takeTick (s.withInputs (afterTick s.inputs))) := by
  have hd : tickDue s = true := by
    unfold tickDue
    rw [hh]
    split <;> simp_all
  simp [step, hd, exec, execTick]

/-- What an instruction that gives a next state did. -/
inductive ExecResult (i : Instr) (s t : State) : Prop where
  /-- TICK. -/
  | ticked (hi : i = .tick) (ht : t = takeTick s)
  /-- A condition, a second BEGIN, or a BEGIN on a failed instance: nothing. -/
  | unchanged (ht : t = s)
  /-- BEGIN arms the interrupt. -/
  | armed (hi : i = .beginCmd) (he : s.errAlloc = false) (ht : t = s.armInterrupt.emit .irqReg)
  /-- LDB or a codec command: a response. -/
  | responded (v : Response) (ht : t = s.respond v)
  /-- WRPIX. -/
  | drew (rot : Rotation) (x y : Int) (color : Colour16) (px py : Nat) (hi : i = .wrpix rot x y color)
      (he : s.errAlloc = false) (hx : xform s.cfg rot x y = some (px, py))
      (ht : t = runHost (encodePixel s.cfg s.back px py (quant565 color)) s)
  /-- FILL. -/
  | filled (color : Colour16) (hi : i = .fill color) (he : s.errAlloc = false)
      (ht : t = runHost (fillMicros s.cfg s.back color) s)
  /-- STB. -/
  | stored (off : Nat) (data : Byte) (hi : i = .stb off data) (he : s.errAlloc = false) (ho : off < s.cfg.bufSize)
      (ht : t = s.withRam (Memory.write s.ram (fb s.cfg s.back off) data))
  /-- SWAP on a double-buffered instance. -/
  | requested (copy : Bool) (hi : i = .swap copy) (he : s.errAlloc = false) (hd : s.cfg.dbuf = true)
      (ht : t = s.requestSwap.withHost (.waiting copy))

theorem exec_cases {i : Instr} {s t : State} (h : exec i s = .next t) : ExecResult i s t := by
  cases i with
  | beginCmd =>
    simp only [exec, execBegin, raise_eq] at h
    split at h
    · cases h; exact .unchanged rfl
    · next he =>
      split at h
      · cases h; exact .unchanged rfl
      · cases h; exact .armed rfl (Bool.eq_false_iff.mpr he) rfl
  | wrpix rot x y color =>
    obtain ⟨he, h⟩ := needsRam_next h
    split at h
    · rw [raise_eq] at h
      cases h; exact .unchanged rfl
    · next px py hx => cases h; exact .drew rot x y color px py rfl he hx rfl
  | fill color =>
    obtain ⟨he, h⟩ := needsRam_next h
    cases h; exact .filled color rfl he rfl
  | swap copy =>
    obtain ⟨he, h⟩ := needsRam_next h
    split at h
    · next hd => cases h; exact .requested copy rfl he hd rfl
    · rw [raise_eq] at h
      cases h; exact .unchanged rfl
  | ldb off =>
    obtain ⟨_, h⟩ := needsRam_next h
    split at h
    · cases h; exact .responded _ rfl
    · cases h
  | stb off data =>
    obtain ⟨he, h⟩ := needsRam_next h
    split at h
    · next ho => cases h; exact .stored off data rfl he (by simpa [offsetInside] using ho) rfl
    · cases h
  | qnt color => cases h; exact .responded _ rfl
  | c333 r g b => cases h; exact .responded _ rfl
  | c444 r g b => cases h; exact .responded _ rfl
  | c888 gflag r g b => cases h; exact .responded _ rfl
  | chsv gflag hue sat val => cases h; exact .responded _ rfl
  | tick => cases h; exact .ticked rfl rfl

end Sys2Proof.Machine
end

