-- ==== Sys2Proof/Tests/Slice0.lean ====
section
/-! SUPPORT. Tests on small states: the WellFormed smoke tests, one written-out word per constructor, one or two steps per
instruction, and for every obligation with hypotheses a witness that meets them. Expected values are those of
spec/95_test_vectors.md (V1 to V13, P1 to P5) and spec/30_encoding.md R93. -/

namespace Sys2Proof.Tests

open Sys2Proof.Machine

/-! ### WellFormed: an ill-formed term for each check -/

theorem test_wf_refuses_wide_x : (Instr.wrpix .r0 32768 0 0#16).wf = false := by decide
theorem test_wf_refuses_wide_y : (Instr.wrpix .r0 0 (-32769) 0#16).wf = false := by decide
theorem test_wf_refuses_wide_ldb_offset : (Instr.ldb 16777216).wf = false := by decide
theorem test_wf_refuses_wide_stb_offset : (Instr.stb 16777216 0#8).wf = false := by decide
theorem test_wf_refuses_wide_hue : (Instr.chsv false 2147483648 0#8 0#8).wf = false := by decide

/-! ### Decode: one word per constructor, written out from R81's formats (R93, V6, V13) -/

theorem test_decode_begin : decodeCommand 0x1000000000000000#64 = .ok .beginCmd := by decide
theorem test_decode_wrpix : decodeCommand 0x2003FFFF0005FFFF#64 = .ok (.wrpix .r270 (-1) 5 0xFFFF#16) := by decide
theorem test_decode_wrpix_fields :
    decodeCommand (0b0010#4 ++ 0#10 ++ 0b01#2 ++ 3#16 ++ 5#16 ++ 0xABCD#16) = .ok (.wrpix .r90 3 5 0xABCD#16) := by decide
theorem test_decode_fill : decodeCommand 0x300000000000FFFF#64 = .ok (.fill 0xFFFF#16) := by decide
theorem test_decode_swap : decodeCommand 0x4000000000000001#64 = .ok (.swap true) := by decide
theorem test_decode_ldb : decodeCommand 0x500000000005FF00#64 = .ok (.ldb 1535) := by decide
theorem test_decode_stb : decodeCommand 0x60000000000017F0#64 = .ok (.stb 23 0xF0#8) := by decide
theorem test_decode_qnt : decodeCommand 0x800000000000ABCD#64 = .ok (.qnt 0xABCD#16) := by decide
theorem test_decode_c333 : decodeCommand 0x9000000000040201#64 = .ok (.c333 4#8 2#8 1#8) := by decide
theorem test_decode_c444 : decodeCommand 0xA0000000000A0706#64 = .ok (.c444 10#8 7#8 6#8) := by decide
theorem test_decode_c888 : decodeCommand 0xB000000001C86432#64 = .ok (.c888 true 200#8 100#8 50#8) := by decide
theorem test_decode_chsv : decodeCommand 0xC0010000012C80C8#64 = .ok (.chsv true 300 128#8 200#8) := by decide
theorem test_decode_tick : decode (.tickPort 1#1) = some .tick := by decide

theorem test_decode_refuses_reserved_opcode : decodeCommand 0x7000000000000000#64 = .error .reservedOpcode := by decide
theorem test_decode_refuses_begin_bit : decodeCommand 0x1000000000000001#64 = .error .reservedBits := by decide
theorem test_decode_refuses_ldb_data : decodeCommand 0x5000000000000001#64 = .error .reservedBits := by decide
theorem test_decode_refuses_c444_gflag : decodeCommand 0xA000000001010101#64 = .error .reservedBits := by decide

theorem test_encode_wrpix : encode (.wrpix .r270 (-1) 5 0xFFFF#16) = .command 0x2003FFFF0005FFFF#64 := by decide
theorem test_encode_chsv : encode (.chsv false (-1) 255#8 255#8) = .command 0xC000FFFFFFFFFFFF#64 := by decide

/-! ### Small instances -/

/-- The gamma table the spec names for tests: `GAMMA4(i) = i >> 4` (V3). -/
def testGamma : Vector (BitVec 4) 256 := Vector.ofFn fun i => BitVec.ofNat 4 (i.val / 16)

theorem testGamma_legal : GammaLegal testGamma := by
  have hget : ∀ i : Fin 256, testGamma.get i = BitVec.ofNat 4 (i.val / 16) := fun i => by
    rw [testGamma, Vector.get_eq_getElem, Vector.getElem_ofFn]
  refine ⟨fun i j hij => ?_, hget 255⟩
  rw [hget, hget, BitVec.toNat_ofNat, BitVec.toNat_ofNat, Nat.mod_eq_of_lt (by omega), Nat.mod_eq_of_lt (by omega)]
  exact Nat.div_le_div_right hij

/-- WIDTH = 4, NROWS = 2, BASE_DURATION = 100, as in programs P2 (single buffer) and P3 (double buffer). -/
def cfg42 (dbuf : Bool) : Config := ⟨4, 2, dbuf, 100, testGamma, 48⟩

theorem cfg42_legal (dbuf : Bool) : (cfg42 dbuf).Legal := by
  refine ⟨?_, ?_, ?_, ?_, ?_, ?_, testGamma_legal⟩ <;> simp [cfg42, Config.bufSize]

/-- The single-buffer instance after reset. -/
def s1 : State := State.resetOf (cfg42 false)

/-- The double-buffer instance after reset. -/
def s2 : State := State.resetOf (cfg42 true)

/-- The double-buffer instance, running, at a position. -/
def at2 (row : Nat) (plane : Plane) : State := { s2 with running := true, row := row, plane := plane }

/-- The same, with a SWAP waiting. -/
def waiting2 (row : Nat) (plane : Plane) (copy : Bool) : State :=
  { at2 row plane with swapPending := true, host := .waiting copy }

/-- An instance without enough RAM, after reset. -/
def sFailed : State := State.resetOf { cfg42 true with ramBytes := 47 }

/-- The state after an outcome, or the state it came from. -/
def after (o : Outcome) (s : State) : State :=
  match o with
  | .next t => t
  | _ => s

/-- An idle host that takes the word is refused. -/
def refusedWord (w : CommandWord) : Bool :=
  match step { s2 with inputs := [.command w] } with
  | .refused _ => true
  | _ => false

/-! ### One step per instruction -/

theorem test_qnt : (after (exec (.qnt 0xABCD#16) s1) s1).responses = [0x0A76#16] := by decide
theorem test_qnt_kept_bits : (after (exec (.qnt 0xF79E#16) s1) s1).responses = [0x0FFF#16] := by decide
theorem test_c333 : (after (exec (.c333 5#8 3#8 6#8) s1) s1).responses = [0xB37B#16] := by decide
theorem test_c333_upper_bits : (after (exec (.c333 12#8 10#8 9#8) s1) s1).responses = [0x9244#16] := by decide
theorem test_c444 : (after (exec (.c444 10#8 7#8 6#8) s1) s1).responses = [0xABAC#16] := by decide
theorem test_c444_small : (after (exec (.c444 1#8 2#8 3#8) s1) s1).responses = [0x1106#16] := by decide
theorem test_c888 : (after (exec (.c888 false 0x12#8 0x34#8 0x56#8) s1) s1).responses = [0x11AA#16] := by decide
theorem test_c888_gamma : (after (exec (.c888 true 15#8 15#8 15#8) s1) s1).responses = [0x0000#16] := by decide +kernel
theorem test_chsv : (after (exec (.chsv false 640 200#8 100#8) s1) s1).responses = [0x1326#16] := by decide
theorem test_chsv_least_hue :
    (after (exec (.chsv false (-2147483648) 255#8 255#8) s1) s1).responses = [0x001F#16] := by decide
theorem test_begin : (after (exec .beginCmd s1) s1).events = [.irqReg] := by decide
theorem test_begin_twice : (after (exec .beginCmd (at2 0 0)) s1).events = [] := by decide
/-- P2: the white lower pixel (3, 3) beside the blue upper pixel (3, 1): column bytes F3, F3, F0. -/
theorem test_wrpix_lower :
    (after (exec (.wrpix .r0 3 3 0xFFFF#16) { s1 with ram := [(15, 0x10#8), (19, 0x11#8), (23, 0x10#8)] }) s1).ram =
      [(15, 0xF3#8), (19, 0xF3#8), (23, 0xF0#8)] := by decide
theorem test_wrpix_green_rotated : (after (exec (.wrpix .r180 3 3 0x07E0#16) s1) s1).ram =
    [(0, 0x08#8), (4, 0x08#8), (8, 0x0A#8)] := by decide
/-- P4, command 2: WIDTH = 2, NROWS = 1. -/
theorem test_fill :
    ((after (exec (.fill 0xABCD#16) (State.resetOf ⟨2, 1, false, 1, testGamma, 6⟩)) s1).ram.map Prod.snd) =
      [0xFD#8, 0xFD#8, 0xD8#8, 0xD8#8, 0x26#8, 0x26#8] := by decide
theorem test_fill_black_pixels : (after (exec (.fill 0x0861#16) { s1 with ram := [(7, 0xA5#8)] }) s1).ram = [] := by
  decide +kernel
theorem test_swap_single : (after (exec (.swap true) s1) s2) = s1 := rfl
theorem test_swap_double : (after (exec (.swap true) s2) s2).host = .waiting true := by decide
theorem test_ldb : (after (exec (.ldb 8) { s1 with ram := [(8, 0x05#8)] }) s1).responses = [0x0005#16] := by decide
theorem test_stb : (after (exec (.stb 23 0xF0#8) s1) s1).ram = [(23, 0xF0#8)] := by decide
theorem test_stb_clears : (after (exec (.stb 23 0x00#8) { s1 with ram := [(23, 0xF0#8)] }) s1).ram = [] := by decide
/-- P2, tick 2: row 0 plane 1 of the pixels (0, 0) = (15, 0, 0) and (1, 2) = (10, 7, 6). -/
theorem test_tick : (after (exec .tick { at2 0 0 with front := 0, ram := [(0, 0x04#8), (1, 0xE1#8)] }) s1).events =
    [.oe false, .lat true, .clkLow, .addr 0, .timer 100, .oe true, .lat false, .rgb 0x01#6, .clkPulse, .rgb 0x38#6, .clkPulse,
     .rgb 0#6, .clkPulse, .rgb 0#6, .clkPulse] := by decide
/-- V12: the plane-0 gather of column bytes FD, D8, 26. -/
theorem test_colMask_plane0 :
    colMask (cfg42 false) [(0, 0xFD#8), (4, 0xD8#8), (8, 0x26#8)] 0 0 0 0 = 0x12#6 := by decide
/-- V8: `STB 0, 0xFF` gives the lower pixel (2, 3, 3). -/
theorem test_decodePixel : decodePixel (cfg42 false) [(0, 0xFF#8)] 0 0 2 = ⟨2#4, 3#4, 3#4⟩ := by decide
/-- P5, step a: the tick cuts the write after its first micro-operation. -/
theorem test_preempted_wrpix : (after (exec (.wrpix .r0 0 0 0xFFFF#16) { s1 with inputs := [.tick 1] }) s1).ram =
    [(0, 0x1C#8)] := by decide

/-! ### Witnesses: states and operands that meet the hypotheses of each obligation -/

theorem s2_inv : s2.Inv := by
  refine ⟨cfg42_legal true, ?_, ?_, ?_, ?_, rfl, ?_, ?_, ?_, ?_, ?_, Memory.wf_nil, ?_⟩ <;> simp [s2, cfg42]

theorem s1_running_inv : { s1 with running := true }.Inv := by
  refine ⟨cfg42_legal false, ?_, ?_, ?_, ?_, rfl, ?_, ?_, ?_, ?_, ?_, Memory.wf_nil, ?_⟩ <;>
    simp [s1, cfg42, Config.allocFails, Config.nbuf, Config.bufSize]

theorem waiting2_inv (row : Fin 2) (plane : Plane) (copy : Bool) : (waiting2 row plane copy).Inv := by
  refine ⟨cfg42_legal true, row.isLt, ?_, ?_, ?_, rfl, ?_, ?_, ?_, ?_, ?_, Memory.wf_nil, ?_⟩ <;>
    simp [waiting2, at2, s2, cfg42, Config.allocFails, Config.nbuf, Config.bufSize]

/-- The host at its micro-operations, in the back region 0. -/
def busy2 (ms : List Micro) (inputs : List Input) : State := { at2 0 0 with host := .busy ms, inputs := inputs }

theorem busy2_inv (inputs : List Input) : (busy2 [.write 0 1#8, .write 23 1#8] inputs).Inv := by
  refine ⟨cfg42_legal true, ?_, ?_, ?_, ?_, rfl, ?_, ?_, ?_, ?_, ?_, Memory.wf_nil, ?_⟩ <;>
    simp [busy2, at2, s2, cfg42, Config.allocFails, Config.nbuf, Config.bufSize, State.back, Micro.legal, inRegion, fb]

/-- A SWAP whose flag has been cleared. -/
def cleared2 (copy : Bool) (inputs : List Input) : State := { at2 0 0 with host := .waiting copy, inputs := inputs }

theorem cleared2_inv (copy : Bool) (inputs : List Input) : (cleared2 copy inputs).Inv := by
  refine ⟨cfg42_legal true, ?_, ?_, ?_, ?_, rfl, ?_, ?_, ?_, ?_, ?_, Memory.wf_nil, ?_⟩ <;>
    simp [cleared2, at2, s2, cfg42, Config.allocFails, Config.nbuf, Config.bufSize]

theorem witness_FirstTickBeginsAFreshCycle :
    ∃ (c : Config) (s t : State), c.Legal ∧ s.cfg = c ∧ s.row = c.nrows - 1 ∧ s.plane = 3 ∧ s.running = true ∧ exec .tick s = .next t :=
  ⟨cfg42 true, at2 1 3, _, cfg42_legal true, rfl, rfl, rfl, rfl, rfl⟩

theorem witness_ResetMeetsInvariant : ∃ c : Config, c.Legal := ⟨_, cfg42_legal true⟩

theorem witness_StepKeepsInvariant : ∃ s t : State, s.Inv ∧ step s = .next t := ⟨s2, _, s2_inv, rfl⟩

theorem witness_DecodeInvertsEncode :
    (Instr.wrpix .r270 (-32768) 32767 0xFFFF#16).wf = true ∧ (Instr.ldb 16777215).wf = true ∧
    (Instr.chsv true (-2147483648) 255#8 0#8).wf = true := by decide

theorem witness_EncodeInvertsDecode : ∃ g i, decode g = some i :=
  ⟨.command 0x2003FFFF0005FFFF#64, .wrpix .r270 (-1) 5 0xFFFF#16, by decide⟩

/-- Each reserved opcode, and for each assigned opcode its lowest and highest reserved bit. -/
theorem witness_ReservedWordsAreRefused :
    (∃ (s : State) (w : CommandWord) (rest : List Input), s.host = .idle ∧ s.inputs = .command w :: rest ∧ w.extractLsb' 60 4 = 0xF#4) ∧
    ([0x0000000000000000#64, 0x7000000000000000#64, 0xD000000000000000#64, 0xE000000000000000#64,
        0xF000000000000000#64].all refusedWord = true) ∧
    (∃ (s : State) (w : CommandWord) (rest : List Input), s.host = .idle ∧ s.inputs = .command w :: rest ∧ w.extractLsb' 60 4 = 0x2#4 ∧
      w.extractLsb' 50 10 ≠ 0#10) ∧
    ([0x1000000000000001#64, 0x1800000000000000#64, 0x2004000000000000#64, 0x3000000000010000#64,
        0x4000000000000002#64, 0x5000000000000001#64, 0x5000000100000000#64, 0x6000000100000000#64, 0x8000000000010000#64,
        0x9000000001000000#64, 0xA000000001000000#64, 0xB000000002000000#64, 0xC002000000000000#64].all refusedWord = true) :=
  ⟨⟨{ s2 with inputs := [.command 0xF000000000000000#64] }, _, _, rfl, rfl, by decide⟩, by decide +kernel,
    ⟨{ s2 with inputs := [.command 0x2004000000000000#64] }, _, _, rfl, rfl, by decide, by decide⟩, by decide +kernel⟩

/-- One state for each clause. -/
theorem witness_StepRunsTheNextEvent :
    (∃ (s : State) (w : CommandWord) (i : Instr) (rest : List Input), s.host = .idle ∧ s.inputs = .command w :: rest ∧ decode (.command w) = some i) ∧
    (∃ (s : State) (n : Nat) (rest : List Input), s.host = .idle ∧ s.inputs = .tick n :: rest) ∧
    (∃ s : State, s.host = .idle ∧ s.inputs = []) ∧
    (∃ (s : State) (ms : List Micro) (rest : List Input), s.host = .busy ms ∧ s.inputs = .tick 0 :: rest) ∧
    (∃ (s : State) (ms : List Micro) (n : Nat) (rest : List Input), s.host = .busy ms ∧ s.inputs = .tick (n + 1) :: rest) ∧
    (∃ (s : State) (ms : List Micro), s.host = .busy ms ∧ s.inputs = []) ∧
    (∃ (s : State) (ms : List Micro) (w : CommandWord) (rest : List Input), s.host = .busy ms ∧ s.inputs = .command w :: rest) ∧
    (∃ (s : State) (copy : Bool) (n : Nat) (rest : List Input), s.host = .waiting copy ∧ s.swapPending = true ∧ s.inputs = .tick n :: rest) ∧
    (∃ (s : State) (copy : Bool), s.host = .waiting copy ∧ s.swapPending = true ∧ s.inputs = []) ∧
    (∃ (s : State) (copy : Bool) (w : CommandWord) (rest : List Input), s.host = .waiting copy ∧ s.swapPending = true ∧ s.inputs = .command w :: rest) ∧
    (∃ (s : State) (copy : Bool) (rest : List Input), s.host = .waiting copy ∧ s.swapPending = false ∧ s.inputs = .tick 0 :: rest) ∧
    (∃ (s : State) (copy : Bool), s.host = .waiting copy ∧ s.swapPending = false ∧ s.inputs = []) ∧
    (∃ (s : State) (copy : Bool) (w : CommandWord) (rest : List Input), s.host = .waiting copy ∧ s.swapPending = false ∧ s.inputs = .command w :: rest) ∧
    (∃ (s : State) (copy : Bool) (n : Nat) (rest : List Input), s.host = .waiting copy ∧ s.swapPending = false ∧ s.inputs = .tick (n + 1) :: rest) :=
  ⟨⟨{ s2 with inputs := [.command 0x1000000000000000#64] }, _, .beginCmd, _, rfl, rfl, by decide⟩,
   ⟨{ s2 with inputs := [.tick 0] }, _, _, rfl, rfl⟩, ⟨s2, rfl, rfl⟩,
   ⟨{ s2 with host := .busy [.write 0 1#8], inputs := [.tick 0] }, _, _, rfl, rfl⟩,
   ⟨{ s2 with host := .busy [.write 0 1#8], inputs := [.tick 1] }, _, _, _, rfl, rfl⟩,
   ⟨{ s2 with host := .busy [.write 0 1#8] }, _, rfl, rfl⟩,
   ⟨{ s2 with host := .busy [.write 0 1#8], inputs := [.command 0#64] }, _, _, _, rfl, rfl⟩,
   ⟨{ waiting2 0 0 true with inputs := [.tick 2] }, _, _, _, rfl, rfl, rfl⟩, ⟨waiting2 0 0 true, _, rfl, rfl, rfl⟩,
   ⟨{ waiting2 0 0 true with inputs := [.command 0#64] }, _, _, _, rfl, rfl, rfl⟩,
   ⟨cleared2 true [.tick 0], _, _, rfl, rfl, rfl⟩, ⟨cleared2 true [], _, rfl, rfl, rfl⟩,
   ⟨cleared2 false [.command 0#64], _, _, _, rfl, rfl, rfl⟩, ⟨cleared2 true [.tick 1], _, 0, _, rfl, rfl, rfl⟩⟩

theorem witness_PlacedWordIsRunNext :
    decodeTableWord 64 0x6000000000004005 = some (.stb 64 0x05#8) ∧ decodeTableWord 8 1 = some .tick := by decide

theorem witness_QuantizerTakesTopFourBits :
    ∃ c d : Colour16, c ≠ d ∧ ∀ n, n ≠ 11 → n ≠ 6 → n ≠ 5 → n ≠ 0 → c.getLsbD n = d.getLsbD n := by
  refine ⟨0x0861#16, 0#16, by decide, fun n h1 h2 h3 h4 => ?_⟩
  by_cases hn : n < 16
  · revert h1 h2 h3 h4
    interval_cases n <;> decide
  · rw [BitVec.getLsbD_of_ge _ n (by omega), BitVec.getLsbD_of_ge _ n (by omega)]

theorem witness_C888Responds : ∃ s : State, s.cfg.Legal := ⟨s2, cfg42_legal true⟩

/-- The ends of the first, second and last sextant, and a negative hue. -/
theorem witness_ChsvResponds :
    ((255 : Nat) : Int) = 255 % 1536 ∧ ((256 : Nat) : Int) = 256 % 1536 ∧ ((1535 : Nat) : Int) = 1535 % 1536 ∧
    ((1535 : Nat) : Int) = (-1) % 1536 ∧ ((1280 : Nat) : Int) = 1280 % 1536 := by decide

theorem witness_ChsvCornerCases : (-1 : Int) % 1536 = 1535 % 1536 ∧ (-1537 : Int) % 1536 = 1535 % 1536 := by decide

theorem witness_XformMapsTheVisibleAreaOntoThePanel :
    xform (cfg42 true) .r90 0 3 = some (0, 0) ∧ xform (cfg42 true) .r270 3 0 = some (0, 0) ∧
    xform (cfg42 true) .r0 4 0 = none ∧ (3 < (cfg42 true).width ∧ 3 < (cfg42 true).height) := by decide

theorem witness_LocIsABijectionOntoTheRegionsBits :
    (3 < (cfg42 true).width ∧ 3 < (cfg42 true).height ∧ loc (cfg42 true) 3 3 .B 3 = loc (cfg42 true) 3 3 .B 3) ∧
    (23 < (cfg42 true).bufSize ∧ 7 < 8) := by decide

/-- The written pixel is the last of the panel; bit 7 of byte 0 is none of its bits. -/
theorem witness_EncodePixelSetsExactlyItsTwelveBits :
    Memory.wf [(0, 0xFF#8)] ∧ 3 < (cfg42 true).width ∧ 3 < (cfg42 true).height ∧
    ∀ ch p, ¬(0 = fb (cfg42 true) 0 (loc (cfg42 true) 3 3 ch p).1 ∧ 7 = (loc (cfg42 true) 3 3 ch p).2) := by
  refine ⟨by decide, by decide, by decide, fun ch p => ?_⟩
  cases ch <;> revert p <;> decide

/-- Two pixels that share their three bytes. -/
theorem witness_PixelWritesCommute :
    Memory.wf [] ∧ 0 < (cfg42 true).width ∧ 0 < (cfg42 true).height ∧ 2 < (cfg42 true).height ∧
    ((0 : Region), 0, 0) ≠ ((0 : Region), 0, 2) := by decide

/-- Each bound, at its first value outside. -/
theorem witness_WrpixOutOfRangeIsASilentNoOp :
    s1.errAlloc = false ∧ (-1 : Int) < 0 ∧ (4 : Int) ≥ s1.cfg.width ∧ (4 : Int) ≥ s1.cfg.height ∧
    xform s1.cfg .r0 4 0 = none ∧ xform s1.cfg .r90 0 4 = none ∧ xform s1.cfg .r180 0 4 = none ∧
    xform s1.cfg .r270 (-1) 0 = none := by decide

/-- The last byte of the region is written, with a tick due right after the third micro-operation. -/
theorem witness_WrpixWritesItsPixelAndNothingElse :
    ∃ s : State, s.errAlloc = false ∧ Memory.wf s.ram ∧ xform s.cfg .r0 3 3 = some (3, 3) ∧ Uninterrupted s 3 :=
  ⟨{ s1 with inputs := [.tick 3] }, by decide, by decide, by decide, fun n rest h => by simp_all⟩

theorem witness_FillSetsEveryByteOfTheBackRegion :
    ∃ s : State, s.errAlloc = false ∧ Memory.wf s.ram ∧
      Uninterrupted s (microCount (fillMicros s.cfg s.back 0xF800#16)) ∧ 23 < s.cfg.bufSize ∧ ¬inRegion s.cfg s.back 24 :=
  ⟨s2, by decide, by decide, fun n rest h => by simp [s2] at h, by decide, fun h => absurd h.2 (by decide)⟩

theorem witness_FastFillEqualsPixelFill : Memory.wf [(3, 0xA5#8)] := by decide

/-- A write with a tick right after its third byte, one with a tick right before it, and a fill with a tick at once. -/
theorem witness_PreemptedDrawingEndsInTheSameRam :
    (∃ (s t : State) (i : Instr) (ms : List Micro), s.host = .idle ∧ Memory.wf s.ram ∧
      (∃ rot x y color px py, i = .wrpix rot x y color ∧ xform s.cfg rot x y = some (px, py) ∧
        ms = encodePixel s.cfg s.back px py (quant565 color)) ∧ exec i s = .next t ∧
      s.inputs = [.tick 3] ∧ Uninterrupted s ms.length) ∧
    (∃ (s t : State) (i : Instr) (ms : List Micro), s.host = .idle ∧ Memory.wf s.ram ∧
      (∃ rot x y color px py, i = .wrpix rot x y color ∧ xform s.cfg rot x y = some (px, py) ∧
        ms = encodePixel s.cfg s.back px py (quant565 color)) ∧ exec i s = .next t ∧
      s.inputs = [.tick 2] ∧ 2 < ms.length) ∧
    (∃ (s t : State) (i : Instr) (ms : List Micro) (color : Colour16), s.host = .idle ∧ Memory.wf s.ram ∧ i = .fill color ∧
      ms = fillMicros s.cfg s.back color ∧ exec i s = .next t ∧ s.inputs = [.tick 0] ∧ 0 < ms.length) :=
  ⟨⟨{ s1 with inputs := [.tick 3] }, _, .wrpix .r0 0 0 0xF800#16, _, rfl, by decide,
      ⟨.r0, 0, 0, 0xF800#16, 0, 0, rfl, by decide, rfl⟩, rfl, rfl,
      fun n rest h => by cases h; decide⟩,
   ⟨{ s1 with inputs := [.tick 2] }, _, .wrpix .r0 0 0 0xF800#16, _, rfl, by decide,
      ⟨.r0, 0, 0, 0xF800#16, 0, 0, rfl, by decide, rfl⟩, rfl, rfl, by decide⟩,
   ⟨{ s2 with inputs := [.tick 0] }, _, .fill 0xFFFF#16, _, 0xFFFF#16, rfl, by decide, rfl, rfl, rfl, rfl, by decide⟩⟩

theorem witness_LdbRespondsAByteOfTheBackRegion :
    s2.errAlloc = false ∧ 23 < s2.cfg.width * s2.cfg.nrows * 3 ∧ s2.cfg.width * s2.cfg.nrows * 3 ≤ 24 := by decide

theorem witness_StbWritesAByteOfTheBackRegion :
    s2.errAlloc = false ∧ Memory.wf s2.ram ∧ 23 < s2.cfg.width * s2.cfg.nrows * 3 ∧
    s2.cfg.width * s2.cfg.nrows * 3 ≤ 24 := by decide

theorem witness_ReadsHaveNoSideEffectsAndWritesAreIdempotent :
    (∃ s t off, exec (.ldb off) s = .next t) ∧
    (∃ (s t u : State) (off : Nat) (data : Byte), Memory.wf s.ram ∧ exec (.stb off data) s = .next t ∧ exec (.stb off data) t = .next u) ∧
    Memory.wf [(3, 0xA5#8)] :=
  ⟨⟨s2, _, 23, rfl⟩, ⟨s2, _, _, 23, 0xF0#8, by decide, rfl, rfl⟩, by decide⟩

theorem witness_DumpRespondsTheBackRegion :
    ∃ s : State, s.cfg.Legal ∧ s.errAlloc = false ∧ s.host = .idle ∧ s.inputs = (dump s.cfg).map inputOf :=
  ⟨{ s1 with inputs := (dump (cfg42 false)).map inputOf }, cfg42_legal false, by decide, rfl, rfl⟩

theorem witness_MemoryCommandsRefusedWithoutRam : sFailed.errAlloc = true := by decide

theorem witness_SwapOnASingleBufferIsANoOp : s1.errAlloc = false ∧ s1.cfg.dbuf = false := by decide

theorem witness_SwapSetsTheFlagAndWaits : s2.errAlloc = false ∧ s2.cfg.dbuf = true := by decide

theorem witness_SwapEndsWithCopyForward :
    (∃ s : State, s.cfg.dbuf = true ∧ s.swapPending = false ∧ Memory.wf s.ram ∧ (∀ rest, s.inputs ≠ .tick 0 :: rest) ∧
      s.host = .waiting false) ∧
    (∃ s : State, s.cfg.dbuf = true ∧ s.swapPending = false ∧ Memory.wf s.ram ∧ (∀ rest, s.inputs ≠ .tick 0 :: rest) ∧
      s.host = .waiting true ∧ Uninterrupted s (2 * s.cfg.bufSize)) :=
  ⟨⟨{ s2 with host := .waiting false }, by decide, by decide, by decide, by simp [s2], rfl⟩,
   ⟨{ s2 with host := .waiting true, inputs := [.tick 48] }, by decide, by decide, by decide, by simp, rfl,
     fun n rest h => by simp_all [s2, cfg42, Config.bufSize]⟩⟩

/-- A copy with a tick right after its last write, one with a tick right before it, and one with a tick after two bytes. -/
theorem witness_PreemptedCopyForwardEndsInTheSameRam :
    (∃ s t : State, s.cfg.dbuf = true ∧ s.swapPending = false ∧ s.host = .waiting true ∧
      (∀ rest, s.inputs ≠ .tick 0 :: rest) ∧ Memory.wf s.ram ∧ ¬inRegion s.cfg s.back 24 ∧ step s = .next t ∧
      s.inputs = [.tick 48] ∧ Uninterrupted s (2 * s.cfg.bufSize)) ∧
    (∃ s t : State, s.cfg.dbuf = true ∧ s.swapPending = false ∧ s.host = .waiting true ∧
      (∀ rest, s.inputs ≠ .tick 0 :: rest) ∧ Memory.wf s.ram ∧ s.inputs = [.tick 47] ∧ step s = .next t ∧
      47 < 2 * s.cfg.bufSize) ∧
    (∃ s t : State, s.cfg.dbuf = true ∧ s.swapPending = false ∧ s.host = .waiting true ∧
      (∀ rest, s.inputs ≠ .tick 0 :: rest) ∧ Memory.wf s.ram ∧ s.inputs = [.tick 4] ∧ step s = .next t ∧
      4 < 2 * s.cfg.bufSize) :=
  ⟨⟨cleared2 true [.tick 48], _, rfl, rfl, rfl, by simp [cleared2], by decide, fun h => absurd h.2 (by decide), rfl, rfl,
      fun n rest h => by cases h; decide⟩,
   ⟨cleared2 true [.tick 47], _, rfl, rfl, rfl, by simp [cleared2], by decide, rfl, rfl, by decide⟩,
   ⟨cleared2 true [.tick 4], _, rfl, rfl, rfl, by simp [cleared2], by decide, rfl, rfl, by decide⟩⟩

/-- A tick that is due, one right after the last of what is left, and one right before it. -/
theorem witness_PreemptedCommandKeepsItsFinalRam :
    (∃ (s t : State) (ms : List Micro), s.host = .busy ms ∧ s.Inv ∧ s.running = true ∧ s.inputs = [.tick 0] ∧ step s = .next t) ∧
    (∃ (s t : State) (ms : List Micro), s.host = .busy ms ∧ s.Inv ∧ s.inputs = [.tick 2] ∧ step s = .next t ∧
      Uninterrupted s (microCount ms)) ∧
    (∃ (s t : State) (ms : List Micro), s.host = .busy ms ∧ s.Inv ∧ s.inputs = [.tick 1] ∧ step s = .next t ∧
      1 < microCount ms) :=
  ⟨⟨busy2 _ [.tick 0], _, _, rfl, busy2_inv _, rfl, rfl, rfl⟩,
   ⟨busy2 _ [.tick 2], _, _, rfl, busy2_inv _, rfl, rfl, fun n rest h => by cases h; decide⟩,
   ⟨busy2 _ [.tick 1], _, _, rfl, busy2_inv _, rfl, rfl, by decide⟩⟩

/-- The shortest wait, from (1, 3), the longest, from (0, 0), and V9's, from (0, 2). -/
theorem witness_SwapWaitIsBounded :
    ((waiting2 1 3 true).Inv ∧ 1 = 4 * (2 - 1 - 1) + (4 - 3)) ∧ ((waiting2 0 0 true).Inv ∧ 8 = 4 * (2 - 1 - 0) + (4 - 0)) ∧
    ((waiting2 0 2 true).Inv ∧ 6 = 4 * (2 - 1 - 0) + (4 - 2)) ∧ (waiting2 0 2 true).running = true ∧
    (waiting2 0 2 true).host = .waiting true ∧ (waiting2 0 2 true).swapPending = true ∧
    { waiting2 0 2 true with inputs := [.tick 7, .command 0#64] }.Inv := by
  refine ⟨⟨waiting2_inv 1 3 true, rfl⟩, ⟨waiting2_inv 0 0 true, rfl⟩, ⟨waiting2_inv 0 2 true, rfl⟩, rfl, rfl, rfl, ?_⟩
  obtain ⟨h1, h2, h3, h4, h5, h6, h7, h8, h9, h10, h11, h12, h13⟩ := waiting2_inv 0 2 true
  exact ⟨h1, h2, h3, h4, h5, h6, h7, h8, h9, h10, h11, h12, h13⟩

theorem witness_SwapBeforeBeginNeverEnds :
    ∃ s : State, s.running = false ∧ s.host = .waiting true ∧ s.swapPending = true :=
  ⟨{ s2 with swapPending := true, host := .waiting true }, rfl, rfl, rfl⟩

theorem witness_BeginArmsTheInterrupt :
    (s2.errAlloc = false ∧ s2.running = false) ∧ ((at2 0 0).errAlloc = false ∧ (at2 0 0).running = true) ∧
    sFailed.errAlloc = true := by decide

theorem witness_RunningIsSetByBeginAndNeverCleared :
    s2.errAlloc = false ∧ s2.running = false ∧ (∃ t, step (at2 0 0) = .next t ∧ (at2 0 0).running = true) :=
  ⟨by decide, rfl, _, rfl, rfl⟩

theorem witness_ParametersAndErrAllocNeverChange :
    ∃ s t : State, step s = .next t ∧ s.running = false ∧ t.running = true :=
  ⟨{ s2 with inputs := [.command 0x1000000000000000#64] }, _, rfl, rfl, rfl⟩

theorem witness_HostCommandsKeepTheRefreshRegisters :
    (∃ (i : Instr) (s t : State), i ≠ .tick ∧ exec i s = .next t ∧ t.swapPending ≠ s.swapPending ∧ Memory.wf s.ram ∧
      ¬inRegion s.cfg s.back 24) ∧
    (∃ s t : State, s.host = .waiting true ∧ tickDue s = false ∧ step s = .next t ∧ s.Inv ∧ ¬inRegion s.cfg s.back 24) ∧
    (∃ (s t : State) (ms : List Micro), s.host = .busy ms ∧ tickDue s = false ∧ step s = .next t ∧ s.Inv) :=
  ⟨⟨.swap true, s2, _, by decide, rfl, by decide, by decide, fun h => absurd h.2 (by decide)⟩,
   ⟨cleared2 true [], _, rfl, rfl, rfl, cleared2_inv _ _, fun h => absurd h.2 (by decide)⟩,
   ⟨busy2 _ [], _, _, rfl, rfl, rfl, busy2_inv _⟩⟩

theorem witness_TickBeforeBeginDoesNothing : s2.running = false := by decide

/-- A frame boundary with a swap pending, and a position inside the frame. -/
theorem witness_TickRunsThePerTickProtocol :
    ((waiting2 1 3 true).running = true ∧ 1 ≤ (waiting2 1 3 true).cfg.width ∧ (waiting2 1 3 true).swapPending = true ∧
      (waiting2 1 3 true).cfg.nrows ≤ (waiting2 1 3 true).row + 1) ∧
    ((at2 0 0).running = true ∧ 1 ≤ (at2 0 0).cfg.width) := by decide

theorem witness_SwapHappensOnlyAtTheFrameBoundary :
    (∃ s t : State, s.running = true ∧ exec .tick s = .next t ∧ (s.plane = 3 ∧ s.cfg.nrows ≤ s.row + 1) ∧ s.swapPending = true) ∧
    (∃ s t : State, s.running = true ∧ exec .tick s = .next t ∧ ¬(s.plane = 3 ∧ s.cfg.nrows ≤ s.row + 1) ∧
      s.swapPending = true) ∧
    (∃ s t : State, s.running = true ∧ exec .tick s = .next t ∧ s.cfg.nrows = 1 ∧ s.plane = 3 ∧ s.swapPending = true) ∧
    (∃ s t : State, s.running = true ∧ exec .tick s = .next t ∧ s.Inv ∧ s.cfg.dbuf = false) :=
  ⟨⟨waiting2 1 3 true, _, rfl, rfl, by decide, rfl⟩, ⟨waiting2 0 3 true, _, rfl, rfl, by decide, rfl⟩,
   ⟨{ waiting2 0 3 true with cfg := { cfg42 true with nrows := 1 } }, _, rfl, rfl, rfl, rfl, rfl⟩,
   ⟨{ s1 with running := true }, _, rfl, rfl, s1_running_inv, rfl⟩⟩

theorem witness_TickUnblanksThenDropsTheLatch : ∃ s t : State, s.running = true ∧ exec .tick s = .next t :=
  ⟨at2 0 0, _, rfl, rfl⟩

theorem witness_SchedulerHasNoTerminalState :
    (at2 0 0).running = true ∧ (at2 0 0).host = .idle ∧ (at2 0 0).inputs = [] := by decide

theorem witness_TickKeepsTheEventOrder : ∃ t, exec .tick (at2 0 0) = .next t := ⟨_, rfl⟩

/-- The other memory differs in the back region only. -/
theorem witness_TickReadsOnlyTheFrontRegion :
    ∃ (s t : State) (m : Memory), s.row < s.cfg.nrows ∧ exec .tick s = .next t ∧ m ≠ s.ram ∧
      ∀ o, o < s.cfg.bufSize → Memory.read m (fb s.cfg t.front o) = Memory.read s.ram (fb s.cfg t.front o) :=
  ⟨at2 0 0, _, [(0, 0xFF#8)], by decide, rfl, by decide, by decide⟩

theorem witness_ColourLinesAreThePlaneBitsOfTheTwoPixels : 1 < (cfg42 true).nrows ∧ 3 < (cfg42 true).width := by decide

theorem witness_FrontChangesOnlyAtRowZero : ∃ s t : State, step s = .next t ∧ t.front ≠ s.front :=
  ⟨waiting2 1 3 true, _, rfl, by decide⟩

/-- A step that writes RAM, on a double-buffered instance. -/
theorem witness_NoStepWritesTheFrontRegion :
    ∃ s t : State, s.Inv ∧ s.cfg.dbuf = true ∧ step s = .next t ∧ t.ram ≠ s.ram := by
  refine ⟨{ s2 with inputs := [.command 0x60000000000017F0#64] }, _, ?_, rfl, rfl, by decide⟩
  obtain ⟨h1, h2, h3, h4, h5, h6, h7, h8, h9, h10, h11, h12, h13⟩ := s2_inv
  exact ⟨h1, h2, h3, h4, h5, h6, h7, h8, h9, h10, h11, h12, h13⟩

theorem witness_FrameHasFixedPeriodAndDuration : (at2 1 3).running = true ∧ (at2 1 3).row < (at2 1 3).cfg.nrows := by decide

theorem witness_LitTimeIsProportionalToTheValue :
    (∃ c : Config, c.Legal) ∧ (0#4).toNat < (1#4).toNat ∧ (14#4).toNat < (15#4).toNat :=
  ⟨⟨_, cfg42_legal true⟩, by decide, by decide⟩

theorem witness_PanelShowsTheFrontFromTheSecondTick :
    ∃ (s : State) (pn : Panel), s.running = true ∧ s.row < s.cfg.nrows ∧ s.plane = 3 ∧ pn.shift.length = s.cfg.width :=
  ⟨at2 1 3, ⟨[1#6, 2#6, 3#6, 4#6], [], false, 0, 0#6⟩, by decide⟩

theorem witness_AddrWIsTheLeastSufficientLineCount : 1 ≤ 1 ∧ (cfg42 true).nrows ≤ 2 ^ 1 := by decide

end Sys2Proof.Tests
end

/-! The family of spec/00_scope.md: the number of address lines (R7), the next event of a step (R8), and what no step
changes (R7, R29). -/

namespace Sys2Proof.Machine

/-! ### `ADDR_W` (R7, decision D21) -/

theorem one_le_addrW (c : Config) : 1 ≤ addrW c := by
  unfold addrW
  split <;> omega

/-- The width is compared with a positive `n` through the rows that `n` lines address. -/
theorem addrW_le_iff (c : Config) {n : Nat} (hn : 1 ≤ n) : addrW c ≤ n ↔ c.nrows ≤ 2 ^ n := by
  unfold addrW
  split
  · next hsmall =>
    have hpow : 2 ^ 1 ≤ 2 ^ n := Nat.pow_le_pow_right (by decide) hn
    exact iff_of_true hn (by omega)
  · next hlarge =>
    rw [Nat.add_one_le_iff, Nat.log2_lt (by omega)]
    omega

/-- Settles O57: `addrW_le_iff` at `addrW c` itself, and at any other sufficient `n`. -/
theorem addrWIsTheLeastSufficientLineCount : Obligations.AddrWIsTheLeastSufficientLineCount := fun c =>
  ⟨one_le_addrW c, (addrW_le_iff c (one_le_addrW c)).mp le_rfl, fun _ hn hrows => (addrW_le_iff c hn).mpr hrows⟩

/-! ### Which agent moves next (R8, R62, R228), by host phase -/

theorem tickDue_of_command {s : State} {w : CommandWord} {rest : List Input} (hh : s.host = .idle)
    (hin : s.inputs = .command w :: rest) : tickDue s = false := by
  simp only [tickDue, hh, hin]

/-- An idle host lets a tick event through unless a command word is at the head of the inputs. -/
theorem tickDue_of_idle {s : State} (hh : s.host = .idle) (hin : ∀ w rest, s.inputs ≠ .command w :: rest) :
    tickDue s = true := by
  rcases heq : s.inputs with _ | ⟨w | n, rest⟩
  · simp only [tickDue, hh, heq]
  · exact absurd heq (hin w rest)
  · simp only [tickDue, hh, heq]

/-- A preempted command is cut by a tick event exactly when no micro-operation comes before it. -/
theorem tickDue_of_busy {s : State} {ms : List Micro} (hh : s.host = .busy ms) :
    tickDue s = decide (s.inputs.head? = some (.tick 0)) := by
  rcases hin : s.inputs with _ | ⟨w | _ | n, rest⟩ <;> simp [tickDue, hh, hin]

/-- While a SWAP waits, a tick event is due at the head of the inputs or as long as the flag is set. -/
theorem tickDue_of_waiting {s : State} {copy : Bool} (hh : s.host = .waiting copy) :
    tickDue s = (decide (s.inputs.head? = some (.tick 0)) || s.swapPending) := by
  rcases hin : s.inputs with _ | ⟨w | _ | n, rest⟩ <;> simp [tickDue, hh, hin]

/-! ### The three kinds of step -/

theorem step_of_tickDue {s : State} (h : tickDue s = true) :
    step s = exec .tick (s.withInputs (afterTick s.inputs)) := by
  rw [step, if_pos h]

theorem step_of_command {s : State} {w : CommandWord} {rest : List Input} {i : Instr} (hh : s.host = .idle)
    (hin : s.inputs = .command w :: rest) (hdec : decodeCommand w = .ok i) :
    step s = exec i (s.withInputs rest) := by
  simp only [step, tickDue_of_command hh hin, Bool.false_eq_true, if_false, hh, hin, hdec]

theorem step_of_hostTurn {s : State} (hd : tickDue s = false) (hh : s.host ≠ .idle) :
    step s = .next (resumeHost s) := by
  unfold step
  rw [hd, if_neg Bool.false_ne_true]
  split
  · next hidle _ => exact absurd hidle hh
  · rfl

theorem resumeHost_of_busy {s : State} {ms : List Micro} (hh : s.host = .busy ms) :
    resumeHost s = runHost ms (s.withHost .idle) := by
  simp only [resumeHost, hh]

theorem resumeHost_of_waiting {s : State} {copy : Bool} (hh : s.host = .waiting copy) :
    resumeHost s = resumeSwap copy s := by
  simp only [resumeHost, hh]

/-- The host goes on with a preempted command when no tick is due. -/
theorem step_of_busy {s : State} {ms : List Micro} (hh : s.host = .busy ms)
    (hin : s.inputs.head? ≠ some (.tick 0)) : step s = .next (runHost ms (s.withHost .idle)) := by
  rw [step_of_hostTurn (by simp [tickDue_of_busy hh, hin]) (by simp [hh]), resumeHost_of_busy hh]

/-- A SWAP's wait ends when the flag is cleared and no tick is due. -/
theorem step_of_swapCleared {s : State} {copy : Bool} (hh : s.host = .waiting copy) (hp : s.swapPending = false)
    (hin : s.inputs.head? ≠ some (.tick 0)) : step s = .next (resumeSwap copy s) := by
  rw [step_of_hostTurn (by simp [tickDue_of_waiting hh, hin, hp]) (by simp [hh]), resumeHost_of_waiting hh]

/-- A due tick event at the head of the inputs is taken off them. -/
theorem step_of_queuedTick {s : State} {n : Nat} {rest : List Input} (hd : tickDue s = true)
    (hin : s.inputs = .tick n :: rest) : step s = exec .tick (s.withInputs rest) := by
  rw [step_of_tickDue hd, hin, afterTick]

/-- A tick event that is due though none is at the head of the inputs leaves them as they are. -/
theorem step_of_unqueuedTick {s : State} (hd : tickDue s = true) (hin : ∀ n rest, s.inputs ≠ .tick n :: rest) :
    step s = exec .tick s := by
  have hkeep : afterTick s.inputs = s.inputs := by
    unfold afterTick
    split
    · next htick => exact absurd htick (hin _ _)
    · rfl
  rw [step_of_tickDue hd, hkeep]
  rfl

theorem runHost_of_noTick {ms : List Micro} {s : State} (hin : ∀ n rest, s.inputs ≠ .tick n :: rest) :
    runHost ms s = s.withRam (runAll ms s.ram) :=
  runHost_of_uninterrupted fun n rest h => absurd h (hin n rest)

theorem decodeCommand_of_decode {w : CommandWord} {i : Instr} (h : decode (.command w) = some i) :
    decodeCommand w = .ok i := by
  cases hdec : decodeCommand w with
  | ok j => simpa [decode, hdec, Except.toOption] using h
  | error e => simp [decode, hdec, Except.toOption] at h

/-- Settles O10: each clause is one of the three kinds of step, chosen by the host phase and the head of the inputs. -/
theorem stepRunsTheNextEvent : Obligations.StepRunsTheNextEvent := by
  intro s w i n rest ms copy
  refine ⟨?idleCommand, ?idleTick, ?idleEmpty, ?busyDue, ?busyLater, ?busyNoTick, ?waitTick, ?waitNoTick,
    ?clearedDue, ?cleared⟩
  case idleCommand => exact fun hh hin hdec => step_of_command hh hin (decodeCommand_of_decode hdec)
  case idleTick => exact fun hh hin => step_of_queuedTick (tickDue_of_idle hh (by simp [hin])) hin
  case idleEmpty => exact fun hh hin => step_of_unqueuedTick (tickDue_of_idle hh (by simp [hin])) (by simp [hin])
  case busyDue => exact fun hh hin => step_of_queuedTick (by simp [tickDue_of_busy hh, hin]) hin
  case busyLater => exact fun hh hin => step_of_busy hh (by simp [hin])
  case busyNoTick =>
    intro hh hin
    have hhead : s.inputs.head? ≠ some (.tick 0) := by rcases hin with hin | hin <;> simp [hin]
    have hno : ∀ n rest, (s.withHost .idle).inputs ≠ .tick n :: rest := by rcases hin with hin | hin <;> simp [hin]
    rw [step_of_busy hh hhead, runHost_of_noTick hno]
    rfl
  case waitTick => exact fun hh hp hin => step_of_queuedTick (by simp [tickDue_of_waiting hh, hp]) hin
  case waitNoTick =>
    exact fun hh hp hin => step_of_unqueuedTick (by simp [tickDue_of_waiting hh, hp])
      (by rcases hin with hin | hin <;> simp [hin])
  case clearedDue => exact fun hh hp hin => step_of_queuedTick (by simp [tickDue_of_waiting hh, hin]) hin
  case cleared =>
    exact fun hh hp hin => step_of_swapCleared hh hp (by rcases hin with hin | hin | hin <;> simp [hin])

/-! ### What no step changes (R7, R28, R29) -/

/-- Every instruction keeps the parameters and `errAlloc`. -/
theorem exec_keeps_cfg_errAlloc {i : Instr} {s t : State} (h : exec i s = .next t) :
    t.cfg = s.cfg ∧ t.errAlloc = s.errAlloc := by
  cases exec_cases h with
  | ticked _ ht | unchanged ht | armed _ _ ht | responded _ ht | drew _ _ _ _ _ _ _ _ _ ht | filled _ _ _ ht
  | stored _ _ _ _ _ ht | requested _ _ _ _ ht => simp [ht]

/-- Only BEGIN changes `running`. -/
theorem exec_running {i : Instr} {s t : State} (h : exec i s = .next t) :
    t.running = s.running ∨ i = .beginCmd := by
  cases exec_cases h with
  | armed hi _ _ => exact .inr hi
  | ticked _ ht | unchanged ht | responded _ ht | drew _ _ _ _ _ _ _ _ _ ht | filled _ _ _ ht
  | stored _ _ _ _ _ ht | requested _ _ _ _ ht => exact .inl (by simp [ht])

/-- A host that goes on changes no parameter, `errAlloc` or `running`. -/
theorem resumeHost_keeps (s : State) :
    (resumeHost s).cfg = s.cfg ∧ (resumeHost s).errAlloc = s.errAlloc ∧ (resumeHost s).running = s.running := by
  cases hh : s.host with
  | idle => simp [resumeHost, hh]
  | busy ms => simp [resumeHost_of_busy hh]
  | waiting copy =>
    rw [resumeHost_of_waiting hh]
    rcases resumeSwap_cases copy s with h | h <;> simp [h]

/-- Settles O42, by the three kinds of step: only the command step can run a BEGIN. -/
theorem parametersAndErrAllocNeverChange : Obligations.ParametersAndErrAllocNeverChange := by
  intro s t h
  rcases step_cases h with ⟨_, rfl⟩ | ⟨_, _, w, rest, i, hin, hdec, hexec⟩ | ⟨_, _, rfl⟩
  · exact ⟨by simp, by simp, fun hoff hon => by simp [hoff] at hon⟩
  · obtain ⟨hcfg, herr⟩ := exec_keeps_cfg_errAlloc hexec
    refine ⟨hcfg, herr, fun hoff hon => ?_⟩
    rcases exec_running hexec with hsame | rfl
    · simp [hsame, hoff] at hon
    · exact ⟨w, rest, hin, hdec⟩
  · obtain ⟨hcfg, herr, hrun⟩ := resumeHost_keeps s
    exact ⟨hcfg, herr, fun hoff hon => by simp [hrun, hoff] at hon⟩

end Sys2Proof.Machine

/-! The family of spec/10_state.md: reset (R24, R34), the invariant and what keeps it (R27, R32, R33), the flag
`running` (R28), and what the host's side leaves to the refresh side (R36, R52). -/

namespace Sys2Proof.Machine

/-! ### Each update of the state keeps the invariant (R27 to R33, R50, R52) -/

theorem State.Inv.withInputs {s : State} (h : s.Inv) (l : List Input) : (s.withInputs l).Inv := { h with }

theorem State.Inv.respond {s : State} (h : s.Inv) (v : Response) : (s.respond v).Inv := { h with }

theorem State.Inv.emit {s : State} (h : s.Inv) (e : OutEvent) : (s.emit e).Inv := { h with }

theorem State.Inv.withRam {s : State} (h : s.Inv) {m : Memory} (hwf : Memory.wf m)
    (hext : ∀ c ∈ m, c.1 < s.cfg.ramSize) : (s.withRam m).Inv :=
  { h with ram_wf := hwf, ram_extent := hext }

/-- BEGIN arms the interrupt only where the RAM is there. -/
theorem State.Inv.armInterrupt {s : State} (h : s.Inv) (herr : s.errAlloc = false) : s.armInterrupt.Inv :=
  { h with errAlloc_running := fun hfail => absurd hfail (by simp [herr]) }

/-- The host may end its command once no swap is pending. -/
theorem State.Inv.withHost_idle {s : State} (h : s.Inv) (hpend : s.swapPending = false) :
    (s.withHost .idle).Inv :=
  { h with
    errAlloc_idle := fun _ => rfl
    pending_waits := fun hp => absurd hp (by simp [hpend])
    waiting_double := fun _ hw => by cases hw
    busy_legal := fun _ hb => by cases hb }

/-- The host may be left inside a command with legal micro-operations to do. -/
theorem State.Inv.withHost_busy {s : State} (h : s.Inv) (herr : s.errAlloc = false) (hpend : s.swapPending = false)
    {ms : List Micro} (hlegal : ∀ u ∈ ms, u.legal s.cfg s.back) : (s.withHost (.busy ms)).Inv :=
  { h with
    errAlloc_idle := fun hfail => absurd hfail (by simp [herr])
    pending_waits := fun hp => absurd hp (by simp [hpend])
    waiting_double := fun _ hw => by cases hw
    busy_legal := fun _ hb => by cases hb; exact hlegal }

/-- A SWAP raises the flag and the wait together, where there are two buffers. -/
theorem State.Inv.requestSwap_waiting {s : State} (h : s.Inv) (herr : s.errAlloc = false) (hdbuf : s.cfg.dbuf = true)
    (copy : Bool) : (s.requestSwap.withHost (.waiting copy)).Inv :=
  { h with
    pending_single := fun hd => absurd hdbuf (by simpa using hd)
    errAlloc_idle := fun hfail => absurd hfail (by simp [herr])
    pending_waits := fun _ => ⟨copy, rfl⟩
    waiting_double := fun _ _ => hdbuf
    busy_legal := fun _ hb => by cases hb }

/-! ### The host's turn keeps the invariant -/

/-- Only a waiting host has a swap pending (R27). -/
theorem State.Inv.swapPending_of_not_waiting {s : State} (h : s.Inv) (hwait : ∀ copy, s.host ≠ .waiting copy) :
    s.swapPending = false :=
  Bool.eq_false_iff.mpr fun hp => (h.pending_waits hp).elim hwait

/-- The back region lies inside the RAM (R50). -/
theorem inRegion_back_lt_ramSize {s : State} {a : Nat} (h : inRegion s.cfg s.back a) : a < s.cfg.ramSize := by
  have hback : s.back.val + 1 ≤ s.cfg.nbuf := by
    cases hdbuf : s.cfg.dbuf with
    | true => simpa [Config.nbuf, hdbuf] using s.back.isLt
    | false => simp [State.back, Config.nbuf, hdbuf]
  calc a < (s.back.val + 1) * s.cfg.bufSize := by simpa [fb, Nat.add_mul] using h.2
    _ ≤ s.cfg.ramSize := Nat.mul_le_mul_right _ hback

/-- Cells that were listed before, or that legal micro-operations write, are inside the RAM. -/
theorem State.Inv.cell_lt_ramSize {s : State} (h : s.Inv) {ms : List Micro}
    (hlegal : ∀ u ∈ ms, u.legal s.cfg s.back) {c : Host.Cell} (hc : c ∈ s.ram ∨ ∃ u ∈ ms, c.1 = u.target) :
    c.1 < s.cfg.ramSize := by
  rcases hc with hc | ⟨u, hu, htarget⟩
  · exact h.ram_extent c hc
  · exact htarget ▸ inRegion_back_lt_ramSize (Micro.legal_target (hlegal u hu))

/-- An idle host that starts on legal micro-operations keeps the invariant, whether or not a tick cuts them. -/
theorem State.Inv.after_runHost {s : State} (h : s.Inv) (hidle : s.host = .idle) (herr : s.errAlloc = false)
    {ms : List Micro} (hlegal : ∀ u ∈ ms, u.legal s.cfg s.back) : (runHost ms s).Inv := by
  have hpend : s.swapPending = false := h.swapPending_of_not_waiting (by simp [hidle])
  rcases runHost_cases ms s with heq | ⟨n, rest, u, left, m, _, hsome, heq⟩
  · rw [heq]
    exact h.withRam (runAll_wf h.ram_wf ms) fun c hc => h.cell_lt_ramSize hlegal (runAll_mem hc)
  · have hwf := runSome_wf h.ram_wf n ms
    have hmem : ∀ c ∈ (runSome n ms s.ram).2, c.1 < s.cfg.ramSize :=
      fun c hc => h.cell_lt_ramSize hlegal (runSome_mem hc)
    have hleft := runSome_legal (n := n) (m := s.ram) hlegal
    rw [hsome] at hwf hmem hleft
    rw [heq]
    exact ((h.withRam hwf hmem).withHost_busy herr hpend hleft).withInputs _

theorem runHost_nil (s : State) : runHost [] s = s :=
  runHost_of_uninterrupted fun _ _ _ => Nat.zero_le _

theorem State.back_of_dbuf {s : State} (h : s.cfg.dbuf = true) : s.back = 1 - s.front := if_pos h

/-- A host that goes on with its command has a turn at micro-operations of the back region: the rest of a preempted
command, the copy-forward of a SWAP, or none (R52). -/
theorem resumeHost_eq_runHost {s : State} (hbusy : s.host ≠ .idle) :
    ∃ ms, resumeHost s = runHost ms (s.withHost .idle) ∧ (s.Inv → ∀ u ∈ ms, u.legal s.cfg s.back) := by
  cases hh : s.host with
  | idle => exact absurd hh hbusy
  | busy ms => exact ⟨ms, resumeHost_of_busy hh, fun h => h.busy_legal ms hh⟩
  | waiting copy =>
    rw [resumeHost_of_waiting hh]
    rcases resumeSwap_cases copy s with heq | heq
    · exact ⟨[], by rw [heq, runHost_nil], by simp⟩
    · refine ⟨_, heq, fun h => ?_⟩
      rw [State.back_of_dbuf (h.waiting_double copy hh)]
      exact copyForward_legal s.cfg s.front

/-- When it is the host's turn, no swap is pending. -/
theorem State.Inv.swapPending_of_hostTurn {s : State} (h : s.Inv) (hdue : tickDue s = false) :
    s.swapPending = false := by
  refine Bool.eq_false_iff.mpr fun hp => ?_
  obtain ⟨copy, hwait⟩ := h.pending_waits hp
  simp [tickDue_of_waiting hwait, hp] at hdue

theorem State.Inv.after_resumeHost {s : State} (h : s.Inv) (hdue : tickDue s = false) (hbusy : s.host ≠ .idle) :
    (resumeHost s).Inv := by
  obtain ⟨ms, heq, hlegal⟩ := resumeHost_eq_runHost hbusy
  have herr : s.errAlloc = false := Bool.eq_false_iff.mpr fun hfail => hbusy (h.errAlloc_idle hfail)
  rw [heq]
  exact (h.withHost_idle (h.swapPending_of_hostTurn hdue)).after_runHost rfl herr (hlegal h)

/-! ### A tick event keeps the invariant -/

theorem nextRow_lt {c : Config} {row : Nat} (h : row < c.nrows) (p : Plane) : nextRow c row p < c.nrows := by
  unfold nextRow
  split
  · split <;> omega
  · exact h

/-- A tick toggles `front` only with a swap pending, and then the host waits and has no micro-operation to do. -/
theorem State.Inv.after_takeTick {s : State} (h : s.Inv) : (takeTick s).Inv := by
  cases hrun : s.running with
  | false => rwa [takeTick_of_not_running hrun]
  | true =>
    rw [takeTick_of_running hrun]
    have hrow := nextRow_lt h.row_lt s.plane
    exact
      { legal := by simpa using h.legal
        row_lt := by simpa using hrow
        addr_lt := by
          rw [tickBody_addr, tickBody_cfg]
          split
          · exact hrow
          · exact h.addr_lt
        front_single := fun hd => by
          rw [tickBody_cfg] at hd
          simp [h.pending_single hd, h.front_single hd]
        pending_single := fun hd => by
          rw [tickBody_cfg] at hd
          simp [h.pending_single hd]
        errAlloc_eq := by simpa using h.errAlloc_eq
        errAlloc_running := by simpa using h.errAlloc_running
        errAlloc_idle := by simpa using h.errAlloc_idle
        pending_waits := fun hp => by
          rw [tickBody_swapPending, Bool.and_eq_true] at hp
          simpa using h.pending_waits hp.1
        waiting_double := by simpa using h.waiting_double
        busy_legal := fun ms hms => by
          rw [tickBody_host] at hms
          have hpend : s.swapPending = false := h.swapPending_of_not_waiting (by simp [hms])
          rw [State.back_congr (tickBody_cfg s) (by simp [hpend]), tickBody_cfg]
          exact h.busy_legal ms hms
        ram_wf := by simpa using h.ram_wf
        ram_extent := by simpa using h.ram_extent }

/-! ### The invariant at reset and over a step -/

/-- An instruction that an idle host runs keeps the invariant. -/
theorem State.Inv.after_exec {i : Instr} {s t : State} (h : s.Inv) (hidle : s.host = .idle)
    (hexec : exec i s = .next t) : t.Inv := by
  cases exec_cases hexec with
  | ticked _ ht => exact ht ▸ h.after_takeTick
  | unchanged ht => exact ht ▸ h
  | armed _ herr ht => exact ht ▸ (h.armInterrupt herr).emit _
  | responded v ht => exact ht ▸ h.respond v
  | drew _ _ _ color px py _ herr hx ht =>
    obtain ⟨hpx, hpy⟩ := xform_physical hx
    exact ht ▸ h.after_runHost hidle herr (encodePixel_legal _ hpx hpy)
  | filled color _ herr ht => exact ht ▸ h.after_runHost hidle herr (fillMicros_legal _ _ color)
  | stored off data _ herr hoff ht =>
    refine ht ▸ h.withRam (Memory.wf_write h.ram_wf _ _) fun c hc => ?_
    rcases Memory.mem_write hc with hc | ⟨rfl, _⟩
    · exact h.ram_extent c hc
    · exact inRegion_back_lt_ramSize (inRegion_fb hoff)
  | requested copy _ herr hdbuf ht => exact ht ▸ h.requestSwap_waiting herr hdbuf copy

/-- Settles O4, by the three kinds of step. -/
theorem stepKeepsInvariant : Obligations.StepKeepsInvariant := by
  intro s t h hstep
  rcases step_cases hstep with ⟨_, rfl⟩ | ⟨_, hidle, _, rest, _, _, _, hexec⟩ | ⟨hdue, hbusy, rfl⟩
  · exact (h.withInputs _).after_takeTick
  · exact (h.withInputs rest).after_exec hidle hexec
  · exact h.after_resumeHost hdue hbusy

/-- Reset meets the invariant for legal parameters (R34). -/
theorem State.inv_resetOf {c : Config} (hc : c.Legal) : (State.resetOf c).Inv where
  legal := hc
  row_lt := Nat.sub_one_lt_of_lt hc.nrows_pos
  addr_lt := hc.nrows_pos
  front_single := fun hd => if_neg (by simpa using hd)
  pending_single := fun _ => rfl
  errAlloc_eq := rfl
  errAlloc_running := fun _ => rfl
  errAlloc_idle := fun _ => rfl
  pending_waits := fun hp => by cases hp
  waiting_double := fun _ hw => by cases hw
  busy_legal := fun _ hb => by cases hb
  ram_wf := Memory.wf_nil
  ram_extent := fun _ hm => by cases hm

/-- Settles O3. -/
theorem resetMeetsInvariant : Obligations.ResetMeetsInvariant :=
  ⟨fun _ hc => State.inv_resetOf hc, State.inv_resetOf Config.p3_legal⟩

/-! ### No step writes outside the back region (R52) -/

/-- Every instruction leaves the bytes outside the back region alone. -/
theorem exec_readByte_outside {i : Instr} {s t : State} (hwf : Memory.wf s.ram) (hexec : exec i s = .next t) {a : Nat}
    (ha : ¬inRegion s.cfg s.back a) : t.readByte a = s.readByte a := by
  cases exec_cases hexec with
  | drew _ _ _ _ _ _ _ _ hx ht =>
    obtain ⟨hpx, hpy⟩ := xform_physical hx
    exact ht ▸ runHost_readByte_outside hwf (encodePixel_legal _ hpx hpy) ha
  | filled color _ _ ht => exact ht ▸ runHost_readByte_outside hwf (fillMicros_legal _ _ color) ha
  | stored off data _ _ hoff ht =>
    have hne : a ≠ fb s.cfg s.back off := fun heq => ha (heq ▸ inRegion_fb hoff)
    exact ht ▸ Memory.read_write_other hwf data hne
  | ticked _ ht | unchanged ht | armed _ _ ht | responded _ ht | requested _ _ _ _ ht =>
    simp [ht, State.readByte]

/-- A host that goes on leaves the bytes outside the back region alone. -/
theorem State.Inv.resumeHost_readByte_outside {s : State} (h : s.Inv) (hbusy : s.host ≠ .idle) {a : Nat}
    (ha : ¬inRegion s.cfg s.back a) : (resumeHost s).readByte a = s.readByte a := by
  obtain ⟨ms, heq, hlegal⟩ := resumeHost_eq_runHost hbusy
  rw [heq]
  exact runHost_readByte_outside (s := s.withHost .idle) h.ram_wf (hlegal h) ha

theorem State.Inv.step_readByte_outside {s t : State} (h : s.Inv) (hstep : step s = .next t) {a : Nat}
    (ha : ¬inRegion s.cfg s.back a) : t.readByte a = s.readByte a := by
  rcases step_cases hstep with ⟨_, rfl⟩ | ⟨_, _, _, rest, _, _, _, hexec⟩ | ⟨_, hbusy, rfl⟩
  · simp [State.readByte]
  · exact exec_readByte_outside (s := s.withInputs rest) h.ram_wf hexec ha
  · exact h.resumeHost_readByte_outside hbusy ha

/-- With two buffers a byte of the front region is none of the back region. -/
theorem not_inRegion_back_of_front {s : State} (hdbuf : s.cfg.dbuf = true) {a : Nat} (ha : inRegion s.cfg s.front a) :
    ¬inRegion s.cfg s.back a := by
  intro hback
  have hsame : s.front = 1 - s.front := State.back_of_dbuf hdbuf ▸ inRegion_disjoint ha hback
  exact absurd hsame (by generalize s.front = k; revert k; decide)

/-- Settles O53: the front region is outside the back region, where alone a step writes. -/
theorem noStepWritesTheFrontRegion : Obligations.NoStepWritesTheFrontRegion := by
  intro s t h hdbuf hstep o ho
  obtain ⟨hcfg, _, _⟩ := parametersAndErrAllocNeverChange s t hstep
  have hkept := h.step_readByte_outside hstep (not_inRegion_back_of_front hdbuf (inRegion_fb ho))
  simpa only [State.regionByte, State.readByte, hcfg] using hkept

/-! ### `running` (R28) -/

theorem exec_begin_of_idle {s : State} (herr : s.errAlloc = false) (hrun : s.running = false) :
    exec .beginCmd s = .next (s.armInterrupt.emit .irqReg) := by
  simp [exec, execBegin, herr, hrun]

theorem exec_begin_of_running {s : State} (herr : s.errAlloc = false) (hrun : s.running = true) :
    exec .beginCmd s = .next s := by
  simp [exec, execBegin, herr, hrun]

/-- Every instruction leaves `running` as it is, but for a BEGIN, which may set it. -/
theorem exec_running_or_set {i : Instr} {s t : State} (h : exec i s = .next t) :
    t.running = s.running ∨ t.running = true ∧ i = .beginCmd := by
  cases exec_cases h with
  | armed hi _ ht => exact .inr ⟨by simp [ht], hi⟩
  | ticked _ ht | unchanged ht | responded _ ht | drew _ _ _ _ _ _ _ _ _ ht | filled _ _ _ ht
  | stored _ _ _ _ _ ht | requested _ _ _ _ ht => exact .inl (by simp [ht])

theorem step_keeps_running {s t : State} (hstep : step s = .next t) (hrun : s.running = true) : t.running = true := by
  rcases step_cases hstep with ⟨_, rfl⟩ | ⟨_, _, _, _, _, _, _, hexec⟩ | ⟨_, _, rfl⟩
  · simpa using hrun
  · rcases exec_running_or_set hexec with hsame | ⟨hset, _⟩
    · exact hsame.trans hrun
    · exact hset
  · obtain ⟨_, _, hsame⟩ := resumeHost_keeps s
    exact hsame.trans hrun

theorem exec_tick_of_not_running {s : State} (h : s.running = false) : exec .tick s = .next s := by
  simp [exec, execTick, takeTick_of_not_running h]

/-- Settles O41. -/
theorem runningIsSetByBeginAndNeverCleared : Obligations.RunningIsSetByBeginAndNeverCleared := by
  refine ⟨fun _ => rfl, fun s herr => ?_, fun _ _ => step_keeps_running, fun _ => exec_tick_of_not_running⟩
  cases hrun : s.running with
  | true => exact ⟨s, exec_begin_of_running herr hrun, hrun⟩
  | false => exact ⟨_, exec_begin_of_idle herr hrun, rfl⟩

/-! ### What the host's side leaves to the refresh side (R36) -/

/-- The sequencer's position, `front`, the output lines and the count of clock levels drawn are the same. -/
structure SameRefresh (s t : State) : Prop where
  row : t.row = s.row
  plane : t.plane = s.plane
  front : t.front = s.front
  oe : t.oe = s.oe
  lat : t.lat = s.lat
  clk : t.clk = s.clk
  addr : t.addr = s.addr
  rgb : t.rgb = s.rgb
  freeCount : t.freeCount = s.freeCount

theorem exec_sameRefresh {i : Instr} {s t : State} (hi : i ≠ .tick) (h : exec i s = .next t) : SameRefresh s t := by
  cases exec_cases h with
  | ticked htick _ => exact absurd htick hi
  | unchanged ht | armed _ _ ht | responded _ ht | drew _ _ _ _ _ _ _ _ _ ht | filled _ _ _ ht
  | stored _ _ _ _ _ ht | requested _ _ _ _ ht => constructor <;> simp [ht]

theorem exec_swapPending_or_set {i : Instr} {s t : State} (hi : i ≠ .tick) (h : exec i s = .next t) :
    t.swapPending = s.swapPending ∨ t.swapPending = true ∧ ∃ copy, i = .swap copy := by
  cases exec_cases h with
  | ticked htick _ => exact absurd htick hi
  | requested copy hswap _ _ ht => exact .inr ⟨by simp [ht], copy, hswap⟩
  | unchanged ht | armed _ _ ht | responded _ ht | drew _ _ _ _ _ _ _ _ _ ht | filled _ _ _ ht
  | stored _ _ _ _ _ ht => exact .inl (by simp [ht])

theorem exec_events_or_begin {i : Instr} {s t : State} (hi : i ≠ .tick) (h : exec i s = .next t) :
    t.events = s.events ∨ i = .beginCmd := by
  cases exec_cases h with
  | ticked htick _ => exact absurd htick hi
  | armed hbegin _ _ => exact .inr hbegin
  | unchanged ht | responded _ ht | drew _ _ _ _ _ _ _ _ _ ht | filled _ _ _ ht | stored _ _ _ _ _ ht
  | requested _ _ _ _ ht => exact .inl (by simp [ht])

/-- Only WRPIX, FILL and STB write the RAM at once. -/
theorem exec_ram_or_writer {i : Instr} {s t : State} (h : exec i s = .next t) :
    t.ram = s.ram ∨ (∃ rot x y c, i = .wrpix rot x y c) ∨ (∃ c, i = .fill c) ∨ ∃ o d, i = .stb o d := by
  cases exec_cases h with
  | drew rot x y color _ _ hi _ _ _ => exact .inr (.inl ⟨rot, x, y, color, hi⟩)
  | filled color hi _ _ => exact .inr (.inr (.inl ⟨color, hi⟩))
  | stored off data hi _ _ _ => exact .inr (.inr (.inr ⟨off, data, hi⟩))
  | ticked _ ht | unchanged ht | armed _ _ ht | responded _ ht | requested _ _ _ _ ht => exact .inl (by simp [ht])

theorem resumeHost_sameRefresh {s : State} (hbusy : s.host ≠ .idle) : SameRefresh s (resumeHost s) := by
  obtain ⟨ms, heq, _⟩ := resumeHost_eq_runHost hbusy
  rw [heq]
  constructor <;> simp

theorem resumeHost_keeps_pending_and_traces {s : State} (hbusy : s.host ≠ .idle) :
    (resumeHost s).swapPending = s.swapPending ∧ (resumeHost s).events = s.events ∧
    (resumeHost s).responses = s.responses := by
  obtain ⟨ms, heq, _⟩ := resumeHost_eq_runHost hbusy
  simp [heq]

/-- Settles O43: a command by what `exec` can do, a host that goes on by its turn at micro-operations. -/
theorem hostCommandsKeepTheRefreshRegisters : Obligations.HostCommandsKeepTheRefreshRegisters := by
  refine ⟨fun i s t hi hexec => ?command, fun s t hbusy hdue hstep => ?resumed⟩
  case command =>
    obtain ⟨hrow, hplane, hfront, hoe, hlat, hclk, haddr, hrgb, hfree⟩ := exec_sameRefresh hi hexec
    exact ⟨hrow, hplane, hfront, hoe, hlat, hclk, haddr, hrgb, hfree, exec_swapPending_or_set hi hexec,
      exec_running_or_set hexec, exec_events_or_begin hi hexec, exec_ram_or_writer hexec,
      fun hwf _ => exec_readByte_outside hwf hexec⟩
  case resumed =>
    obtain rfl : resumeHost s = t := by simpa [step_of_hostTurn hdue hbusy] using hstep
    obtain ⟨hrow, hplane, hfront, hoe, hlat, hclk, haddr, hrgb, hfree⟩ := resumeHost_sameRefresh hbusy
    obtain ⟨hcfg, herr, hrun⟩ := resumeHost_keeps s
    obtain ⟨hpend, hevents, hresp⟩ := resumeHost_keeps_pending_and_traces hbusy
    exact ⟨hrow, hplane, hfront, hoe, hlat, hclk, haddr, hrgb, hfree, hpend, hrun, herr, hcfg, hevents, hresp,
      fun h _ => h.resumeHost_readByte_outside hbusy⟩

/-! ### Reset values and the first tick (R24, R34) -/

/-- Settles O1: the registers by the equations of `State.resetOf`, and the back region, which is region 0 with one
buffer or two. -/
theorem resetLeavesEveryRegisterAtItsResetValue : Obligations.ResetLeavesEveryRegisterAtItsResetValue := by
  refine ⟨fun c => ?_, rfl⟩
  have hback : (State.resetOf c).back = 0 := by
    cases hd : c.dbuf <;> simp [State.back, hd]
  have herr : (State.resetOf c).errAlloc = true ↔ c.ramBytes < c.nbuf * (c.width * c.nrows * 3) :=
    decide_eq_true_iff
  exact ⟨rfl, rfl, rfl, rfl, hback, rfl, rfl, herr, rfl, rfl, rfl, rfl, rfl, fun _ => rfl, rfl, rfl, rfl, rfl⟩

theorem newEvents_of_append {s t : State} {es : List OutEvent} (h : t.events = s.events ++ es) :
    newEvents s t = es := by
  rw [newEvents, h, List.drop_left]

theorem colours_append (es fs : List OutEvent) : colours (es ++ fs) = colours es ++ colours fs :=
  List.filterMap_append

theorem colours_columnEvents (c : Config) (m : Memory) (k : Region) (row : Nat) (p : Plane) (is : List Nat) :
    colours (is.flatMap (columnEvents c m k row p)) = is.map (colMask c m k row p) := by
  induction is with
  | nil => rfl
  | cons i is ih =>
    rw [List.flatMap_cons, colours_append, ih]
    rfl

/-- The colours of a TICK are the slice at its new position (R190). -/
theorem colours_tickEvents (c : Config) (m : Memory) (d : Nat) (k : Region) (row : Nat) (p : Plane) :
    colours (tickEvents c m d k row p) = slice c m k row p := by
  rw [tickEvents, colours_append, colours_columnEvents, slice]
  split <;> rfl

theorem exec_tick_of_running {s : State} (h : s.running = true) : exec .tick s = .next (tickBody s) := by
  simp [exec, execTick, takeTick_of_running h]

theorem colours_tickBody (s : State) : colours (newEvents s (tickBody s)) =
    slice s.cfg s.ram (tickBody s).front (tickBody s).row (tickBody s).plane := by
  rw [newEvents_of_append (tickBody_events s), colours_tickEvents]

/-- Settles O2: from the last row and plane 3 both counters wrap. -/
theorem firstTickBeginsAFreshCycle : Obligations.FirstTickBeginsAFreshCycle := by
  refine fun c s t hc => ⟨rfl, rfl, fun hcfg hrow hplane hrun htick => ?_⟩
  obtain rfl : tickBody s = t := by simpa [exec_tick_of_running hrun] using htick
  have hpos := hc.nrows_pos
  have hrow' : (tickBody s).row = 0 := by
    rw [tickBody_row, hcfg, hrow, hplane, nextRow, if_pos (by decide), if_pos (by omega)]
  have hplane' : (tickBody s).plane = 0 := by
    rw [tickBody_plane, hplane]
    rfl
  refine ⟨hrow', hplane', ?_⟩
  rw [colours_tickBody, hcfg, hrow', hplane']

end Sys2Proof.Machine

/-! The family of spec/20_memory.md: the RAM's reads and writes (R54), which bytes a TICK reads (R52), preempted drawing
(R59, R229), and the packed layout (R55 to R57). -/

namespace Sys2Proof.Machine

/-! ### Reads and writes (R54) -/

/-- A raw access gives a next state exactly where the RAM is there and the offset names a byte of it (R147, R148). -/
theorem rawAccess_eq_next_iff {s t u : State} {off : Nat} {r : Fault} :
    needsRam s (if offsetInside s.cfg off then .next u else .fault r) = .next t ↔
      s.errAlloc = false ∧ off < s.cfg.bufSize ∧ u = t := by
  cases herr : s.errAlloc with
  | true => simp [herr]
  | false => by_cases hoff : off < s.cfg.bufSize <;> simp [herr, offsetInside, hoff]

theorem exec_ldb_eq_next_iff {s t : State} {off : Nat} : exec (.ldb off) s = .next t ↔
    s.errAlloc = false ∧ off < s.cfg.bufSize ∧ s.respond (0#8 ++ s.regionByte s.back off) = t :=
  rawAccess_eq_next_iff

theorem exec_stb_eq_next_iff {s t : State} {off : Nat} {data : Byte} : exec (.stb off data) s = .next t ↔
    s.errAlloc = false ∧ off < s.cfg.bufSize ∧ s.withRam (Memory.write s.ram (fb s.cfg s.back off) data) = t :=
  rawAccess_eq_next_iff

/-- Settles O30: a response is nothing that an LDB reads, and a second write finds its own value. -/
theorem readsHaveNoSideEffectsAndWritesAreIdempotent :
    Obligations.ReadsHaveNoSideEffectsAndWritesAreIdempotent := by
  refine ⟨fun s t off hload => ?load, fun s t u off data hwf hfirst hsecond => ?store,
    fun _ a v hwf => Memory.write_write_same hwf a v⟩
  case load =>
    obtain ⟨herr, hoff, rfl⟩ := exec_ldb_eq_next_iff.mp hload
    refine ⟨_, rfl, exec_ldb_eq_next_iff.mpr ⟨herr, hoff, ?_⟩⟩
    simp only [State.respond, List.append_assoc, List.singleton_append]
    rfl
  case store =>
    obtain ⟨_, _, rfl⟩ := exec_stb_eq_next_iff.mp hfirst
    obtain ⟨_, _, rfl⟩ := exec_stb_eq_next_iff.mp hsecond
    exact congrArg s.withRam (Memory.write_write_same hwf _ data)

/-! ### What a TICK reads (R52) -/

/-- A column's colours come from the bytes of its region alone. -/
theorem colMask_congr {c : Config} {m m' : Memory} {k : Region} {row i : Nat} (p : Plane) (hrow : row < c.nrows)
    (hi : i < c.width) (hagree : ∀ o, o < c.bufSize → Memory.read m (fb c k o) = Memory.read m' (fb c k o)) :
    colMask c m k row p i = colMask c m' k row p i := by
  have hcolumn := column_lt hrow hi
  have hstride : (p.val - 1) * c.width ≤ 2 * c.width := Nat.mul_le_mul_right _ (by omega)
  simp only [colMask]
  split
  · rw [hagree _ (by omega)]
  · rw [hagree _ (by omega), hagree _ (by omega), hagree _ (by omega)]

/-- The shift-out of some columns is the same with any RAM that gives those columns the same colours. -/
theorem shiftColumns_withRam {m : Memory} {l : List Nat} {s : State}
    (hcol : ∀ i ∈ l, colMask s.cfg m s.front s.row s.plane i = colMask s.cfg s.ram s.front s.row s.plane i) :
    l.foldl shiftColumn (s.withRam m) = (l.foldl shiftColumn s).withRam m := by
  induction l generalizing s with
  | nil => rfl
  | cons i l ih =>
    have hfirst : shiftColumn (s.withRam m) i = (shiftColumn s i).withRam m := by
      simp only [shiftColumn, State.withRam_cfg, State.withRam_ram, State.withRam_front, State.withRam_row,
        State.withRam_plane, hcol i (by simp)]
      rfl
    rw [List.foldl_cons, hfirst, List.foldl_cons]
    exact ih fun j hj => hcol j (List.mem_cons_of_mem i hj)

theorem State.honourSwap_withRam (s : State) (m : Memory) : (s.withRam m).honourSwap = s.honourSwap.withRam m := by
  unfold State.honourSwap
  cases hp : s.swapPending <;> simp only [State.withRam_swapPending, hp] <;> rfl

theorem advance_withRam (s : State) (m : Memory) : advance (s.withRam m) = (advance s).withRam m := by
  cases hb : frameBoundary s.cfg s.row s.plane with
  | false => simp only [advance, State.withRam_cfg, State.withRam_row, State.withRam_plane, hb]; rfl
  | true =>
    simp only [advance, State.withRam_cfg, State.withRam_row, State.withRam_plane, hb, if_true]
    exact State.honourSwap_withRam { s with row := nextRow s.cfg s.row s.plane, plane := nextPlane s.plane } m

theorem updateRowAddress_withRam (s : State) (m : Memory) :
    updateRowAddress (s.withRam m) = (updateRowAddress s).withRam m := by
  by_cases hp : s.plane = 1
  · have hp' : (s.withRam m).plane = 1 := hp
    rw [updateRowAddress, if_pos hp', updateRowAddress, if_pos hp]
    rfl
  · have hp' : ¬(s.withRam m).plane = 1 := hp
    rw [updateRowAddress, if_neg hp', updateRowAddress, if_neg hp]

/-- The parts of a TICK before its shift-out (R182 to R188). -/
def beforeShiftOut (s : State) : State :=
  unblank (programTimer (interval s.cfg s.plane) (updateRowAddress (advance (blankAndLatch s))))

theorem tickBody_eq_shiftOut (s : State) : tickBody s = shiftOut (beforeShiftOut s) := rfl

theorem beforeShiftOut_withRam (s : State) (m : Memory) :
    beforeShiftOut (s.withRam m) = (beforeShiftOut s).withRam m := by
  have hblank : blankAndLatch (s.withRam m) = (blankAndLatch s).withRam m := rfl
  rw [beforeShiftOut, hblank, advance_withRam, updateRowAddress_withRam]
  rfl

/-- The TICK of R191 is the same with any RAM that agrees on the region it leaves as front: only the shift-out reads
bytes, at the new position. -/
theorem tickBody_withRam {s : State} {m : Memory} (hrow : s.row < s.cfg.nrows)
    (hagree : ∀ o, o < s.cfg.bufSize →
      Memory.read m (fb s.cfg (tickBody s).front o) = Memory.read s.ram (fb s.cfg (tickBody s).front o)) :
    tickBody (s.withRam m) = (tickBody s).withRam m := by
  have hcol : ∀ i ∈ List.range (tickBody s).cfg.width,
      colMask (tickBody s).cfg m (tickBody s).front (tickBody s).row (tickBody s).plane i =
        colMask (tickBody s).cfg (tickBody s).ram (tickBody s).front (tickBody s).row (tickBody s).plane i := by
    intro i hi
    rw [tickBody_cfg] at hi ⊢
    rw [tickBody_ram, tickBody_row]
    exact colMask_congr _ (nextRow_lt hrow s.plane) (List.mem_range.mp hi) hagree
  simp only [tickBody_eq_shiftOut, shiftOut_cfg, shiftOut_ram, shiftOut_front, shiftOut_row, shiftOut_plane] at hcol
  rw [tickBody_eq_shiftOut, tickBody_eq_shiftOut, beforeShiftOut_withRam]
  exact shiftColumns_withRam hcol

/-- Settles O50: before BEGIN a tick does nothing, and after it `tickBody_withRam` applies. -/
theorem tickReadsOnlyTheFrontRegion : Obligations.TickReadsOnlyTheFrontRegion := by
  intro s t m hrow htick hagree
  obtain rfl : takeTick s = t := by simpa [exec, execTick] using htick
  refine ⟨takeTick_ram s, congrArg Host.Outcome.next ?_⟩
  change takeTick (s.withRam m) = (takeTick s).withRam m
  cases hrun : s.running with
  | false => rw [takeTick_of_not_running hrun, takeTick_of_not_running (s := s.withRam m) hrun]
  | true =>
    rw [takeTick_of_running hrun] at hagree ⊢
    rw [takeTick_of_running (s := s.withRam m) hrun]
    exact tickBody_withRam hrow hagree

/-! ### A drawing command cut by ticks (R59, R229) -/

/-- The host's turn changes nothing but the RAM, the host phase and the inputs. -/
theorem runHost_frame (ms : List Micro) (s : State) :
    runHost ms s =
      { s with ram := (runHost ms s).ram, host := (runHost ms s).host, inputs := (runHost ms s).inputs } := by
  rcases runHost_cases ms s with heq | ⟨_, _, _, _, _, _, _, heq⟩ <;> rw [heq] <;> rfl

/-- A tick inside a list of single byte accesses finds the first `n` done and the others to do. -/
theorem runHost_of_tick_single {n : Nat} {rest : List Input} {ms : List Micro} {s : State}
    (hin : s.inputs = .tick n :: rest) (hsingle : ∀ u ∈ ms, u.cost = 1) (hn : n < ms.length) :
    runHost ms s =
      ((s.withRam (runAll (ms.take n) s.ram)).withHost (.busy (ms.drop n))).withInputs (.tick 0 :: rest) := by
  rw [runHost_of_tick hin (by rwa [microCount_of_single hsingle]), runSome_of_single hsingle]

theorem exec_fill_next {s t : State} {color : Colour16} (h : exec (.fill color) s = .next t) :
    t = runHost (fillMicros s.cfg s.back color) s := by
  obtain ⟨_, h⟩ := needsRam_next h
  cases h
  rfl

theorem exec_wrpix_next {s t : State} {rot : Rotation} {x y : Int} {color : Colour16} {px py : Nat}
    (hx : xform s.cfg rot x y = some (px, py)) (h : exec (.wrpix rot x y color) s = .next t) :
    t = runHost (encodePixel s.cfg s.back px py (quant565 color)) s := by
  obtain ⟨_, h⟩ := needsRam_next h
  rw [hx] at h
  cases h
  rfl

/-- Settles O27: either drawing command is one turn of the host at single byte accesses of the back region. -/
theorem preemptedDrawingEndsInTheSameRam : Obligations.PreemptedDrawingEndsInTheSameRam := by
  intro s t i ms hidle hwf hdraw hexec
  obtain ⟨rfl, hsingle⟩ : t = runHost ms s ∧ ∀ u ∈ ms, u.cost = 1 := by
    rcases hdraw with ⟨color, rfl, rfl⟩ | ⟨rot, x, y, color, px, py, rfl, hx, rfl⟩
    · exact ⟨exec_fill_next hexec, fillMicros_single _ _ _⟩
    · exact ⟨exec_wrpix_next hx hexec, encodePixel_single _ _ _ _ _⟩
  refine ⟨runHost_frame ms s, runHost_settledRam ms (by simp [hidle]), fun hfree => ?uncut,
    fun n rest hin hn => ?cut, fun a ha => exec_readByte_outside hwf hexec ha⟩
  case uncut =>
    rw [runHost_of_uninterrupted (by rwa [microCount_of_single hsingle])]
    exact ⟨hidle, rfl, rfl⟩
  case cut =>
    rw [runHost_of_tick_single hin hsingle hn]
    exact ⟨rfl, rfl, rfl⟩

/-! ### The packed layout (R55 to R57) -/

/-- Where a channel and plane of the upper or lower pixel lie in their column: the stride (0 to 2) and the bit of its
byte. Three of the weight-1 places are decision D6. -/
def bitPlace : Bool × Channel × Plane → Fin 3 × Fin 8
  | (true, .R, 0) => (2, 0)
  | (true, .G, 0) => (2, 1)
  | (true, .B, 0) => (1, 0)
  | (false, .R, 0) => (1, 1)
  | (false, .G, 0) => (0, 0)
  | (false, .B, 0) => (0, 1)
  | (true, .R, ⟨p + 1, h⟩) => (⟨p, by omega⟩, 2)
  | (true, .G, ⟨p + 1, h⟩) => (⟨p, by omega⟩, 3)
  | (true, .B, ⟨p + 1, h⟩) => (⟨p, by omega⟩, 4)
  | (false, .R, ⟨p + 1, h⟩) => (⟨p, by omega⟩, 5)
  | (false, .G, ⟨p + 1, h⟩) => (⟨p, by omega⟩, 6)
  | (false, .B, ⟨p + 1, h⟩) => (⟨p, by omega⟩, 7)

/-- What a bit of a column means, read off its stride and place: the inverse of `bitPlace`. -/
def placeMeaning : Fin 3 × Fin 8 → Bool × Channel × Plane
  | (0, 0) => (false, .G, 0)
  | (1, 0) => (true, .B, 0)
  | (_, 0) => (true, .R, 0)
  | (0, 1) => (false, .B, 0)
  | (1, 1) => (false, .R, 0)
  | (_, 1) => (true, .G, 0)
  | (j, 2) => (true, .R, j.succ)
  | (j, 3) => (true, .G, j.succ)
  | (j, 4) => (true, .B, j.succ)
  | (j, 5) => (false, .R, j.succ)
  | (j, 6) => (false, .G, j.succ)
  | (j, 7) => (false, .B, j.succ)

theorem placeMeaning_bitPlace (upper : Bool) (ch : Channel) (p : Plane) :
    placeMeaning (bitPlace (upper, ch, p)) = (upper, ch, p) := by
  cases ch <;> revert upper p <;> decide

theorem bitPlace_placeMeaning (j : Fin 3) (b : Fin 8) : bitPlace (placeMeaning (j, b)) = (j, b) := by
  revert j b
  decide

/-- The offset of a byte, by scan row, stride and column (R55). -/
def columnByte (c : Config) (row j px : Nat) : Nat := (row * 3 + j) * c.width + px

theorem columnByte_lt {c : Config} {row j px : Nat} (hrow : row < c.nrows) (hj : j < 3) (hx : px < c.width) :
    columnByte c row j px < c.bufSize := by
  have hstride : j * c.width ≤ 2 * c.width := Nat.mul_le_mul_right _ (by omega)
  have hcolumn := column_lt hrow hx
  rw [columnByte, Nat.add_mul, Nat.mul_right_comm]
  omega

/-- The column, the stride and the scan row are the remainders and the quotient of an offset. -/
theorem columnByte_digits {c : Config} {row j px : Nat} (hj : j < 3) (hx : px < c.width) :
    columnByte c row j px % c.width = px ∧ columnByte c row j px / c.width % 3 = j ∧
    columnByte c row j px / c.width / 3 = row := by
  have hdiv : columnByte c row j px / c.width = row * 3 + j := by
    rw [columnByte, Nat.mul_comm, Nat.mul_add_div (by omega), Nat.div_eq_of_lt hx, Nat.add_zero]
  have hmod : columnByte c row j px % c.width = px := by
    rw [columnByte, Nat.mul_add_mod_self_right, Nat.mod_eq_of_lt hx]
  exact ⟨hmod, by omega, by omega⟩

theorem columnByte_of_digits (c : Config) (o : Nat) :
    columnByte c (o / c.width / 3) (o / c.width % 3) (o % c.width) = o := by
  rw [columnByte, Nat.div_add_mod', Nat.div_add_mod']

/-- `Loc`, by the offset's digits and the place in the column. -/
theorem loc_eq (c : Config) (px py : Nat) (ch : Channel) (p : Plane) :
    loc c px py ch p = (columnByte c (scanRow c py) (bitPlace (upperHalf c py, ch, p)).1 px,
      ((bitPlace (upperHalf c py, ch, p)).2 : Nat)) := by
  have hbase : ∀ j, columnByte c (scanRow c py) j px = baseOffset c px py + j * c.width := fun j => by
    rw [columnByte, baseOffset, Nat.add_mul, Nat.mul_right_comm]
    omega
  rw [hbase]
  obtain ⟨p, hp⟩ := p
  cases p with
  | zero => cases hu : upperHalf c py <;> cases ch <;> simp [loc, hu, bitPlace]
  | succ p => cases hu : upperHalf c py <;> cases ch <;> simp [loc, hu, bitPlace, weightedBit]

/-- The physical row of a half of the panel that a scan row shows (R57). -/
def physicalRow (c : Config) (upper : Bool) (row : Nat) : Nat := if upper then row else row + c.nrows

theorem physicalRow_scanRow (c : Config) (py : Nat) : physicalRow c (upperHalf c py) (scanRow c py) = py := by
  unfold physicalRow scanRow
  split
  · rfl
  · next hlower =>
    have : ¬py < c.nrows := fun h => hlower (decide_eq_true h)
    omega

theorem upperHalf_physicalRow {c : Config} {row : Nat} (hrow : row < c.nrows) (upper : Bool) :
    upperHalf c (physicalRow c upper row) = upper := by
  cases upper <;> simp [upperHalf, physicalRow, hrow]

theorem scanRow_physicalRow {c : Config} {row : Nat} (hrow : row < c.nrows) (upper : Bool) :
    scanRow c (physicalRow c upper row) = row := by
  rw [scanRow, upperHalf_physicalRow hrow]
  cases upper <;> simp [physicalRow]

theorem physicalRow_lt {c : Config} {row : Nat} (hrow : row < c.nrows) (upper : Bool) :
    physicalRow c upper row < c.height := by
  unfold physicalRow Config.height
  split <;> omega

theorem loc_injective {c : Config} {px py px' py' : Nat} {ch ch' : Channel} {p p' : Plane} (hx : px < c.width)
    (hx' : px' < c.width) (h : loc c px py ch p = loc c px' py' ch' p') :
    px = px' ∧ py = py' ∧ ch = ch' ∧ p = p' := by
  rw [loc_eq, loc_eq, Prod.mk.injEq] at h
  obtain ⟨hbyte, hbit⟩ := h
  obtain ⟨hmod, hstride, hrow⟩ :=
    columnByte_digits (row := scanRow c py) (bitPlace (upperHalf c py, ch, p)).1.isLt hx
  obtain ⟨hmod', hstride', hrow'⟩ :=
    columnByte_digits (row := scanRow c py') (bitPlace (upperHalf c py', ch', p')).1.isLt hx'
  rw [hbyte] at hmod hstride hrow
  have hplace : bitPlace (upperHalf c py, ch, p) = bitPlace (upperHalf c py', ch', p') :=
    Prod.ext (Fin.ext (hstride.symm.trans hstride')) (Fin.ext hbit)
  have hmeaning := congrArg placeMeaning hplace
  rw [placeMeaning_bitPlace, placeMeaning_bitPlace, Prod.mk.injEq, Prod.mk.injEq] at hmeaning
  obtain ⟨hupper, hch, hp⟩ := hmeaning
  refine ⟨hmod.symm.trans hmod', ?_, hch, hp⟩
  rw [← physicalRow_scanRow c py, ← physicalRow_scanRow c py', hupper, hrow.symm.trans hrow']

theorem loc_surjective {c : Config} {o b : Nat} (ho : o < c.bufSize) (hb : b < 8) :
    ∃ px py ch p, px < c.width ∧ py < c.height ∧ loc c px py ch p = (o, b) := by
  have hrow : o / c.width / 3 < c.nrows := by
    rw [Nat.div_div_eq_div_mul]
    exact Nat.div_lt_of_lt_mul (by rwa [Nat.mul_right_comm])
  have hwidth : 0 < c.width := Nat.pos_of_ne_zero fun h => by simp [Config.bufSize, h] at ho
  obtain ⟨⟨upper, ch, p⟩, hplace⟩ : ∃ q, bitPlace q = (⟨o / c.width % 3, by omega⟩, ⟨b, hb⟩) :=
    ⟨_, bitPlace_placeMeaning _ _⟩
  refine ⟨o % c.width, physicalRow c upper (o / c.width / 3), ch, p, Nat.mod_lt _ hwidth,
    physicalRow_lt hrow upper, ?_⟩
  rw [loc_eq, upperHalf_physicalRow hrow, scanRow_physicalRow hrow, hplace, columnByte_of_digits]

/-- Settles O20: an offset is its digits, and inside a column `bitPlace` is a bijection. -/
theorem locIsABijectionOntoTheRegionsBits : Obligations.LocIsABijectionOntoTheRegionsBits := by
  refine fun c => ⟨fun _ _ _ _ _ _ _ _ hx _ hx' _ h => loc_injective hx hx' h, fun px py ch p hx hy => ?inside,
    fun _ _ => loc_surjective⟩
  case inside =>
    rw [loc_eq]
    exact ⟨columnByte_lt (scanRow_lt hy) (Fin.isLt _) hx, Fin.isLt _⟩

end Sys2Proof.Machine

/-! The family of spec/30_encoding.md: R84's table read as a partial map from words to opcodes, the encoder and the
decoder against each other (R81, R82), reserved words (R88), and a signal placed at the input ports (R80, R86). -/

namespace Sys2Proof

/-! ### Fields of a command word (R9, R81) -/

theorem field_and (w v : CommandWord) (lo n : Nat) : field (w &&& v) lo n = field w lo n &&& field v lo n :=
  BitVec.extractLsb'_and

/-- A concatenation is a field exactly when its two parts are the field's upper and lower parts. The widths are kept out
of `simp`'s index, so that the lemma finds a field whose width is a numeral. -/
theorem append_eq_field_iff {w : CommandWord} {lo m n : Nat} {x : BitVec m} {y : BitVec n} :
    Eq (α := no_index (BitVec (m + n))) (HAppend.hAppend (γ := no_index (BitVec (m + n))) x y)
        (field w lo (no_index (m + n))) ↔ x = field w (lo + n) m ∧ y = field w lo n := by
  have hsplit : field w lo (m + n) = field w (lo + n) m ++ field w lo n :=
    (BitVec.extractLsb'_append_extractLsb'_eq_extractLsb' rfl).symm
  rw [hsplit]
  refine ⟨fun h => ⟨?_, ?_⟩, fun ⟨hx, hy⟩ => by rw [hx, hy]⟩
  · simpa only [BitVec.extractLsb'_append_eq_left] using congrArg (·.extractLsb' n m) h
  · simpa only [BitVec.extractLsb'_append_eq_right] using congrArg (·.extractLsb' 0 n) h

/-- The field of all 64 bits is the word. -/
theorem field_all (w : CommandWord) : field w 0 64 = w := BitVec.extractLsb'_eq_self

/-! ### Each operand form is its field, both ways (R82) -/

theorem toBits_eq_iff {rot : Rotation} {b : BitVec 2} : rot.toBits = b ↔ rot = Rotation.ofBits b := by
  revert b
  cases rot <;> decide

theorem ofInt_eq_iff {n : Nat} {v : Int} {b : BitVec (n + 1)} (hlo : -2 ^ n ≤ v) (hhi : v < 2 ^ n) :
    BitVec.ofInt (n + 1) v = b ↔ v = b.toInt := by
  have hself : (BitVec.ofInt (n + 1) v).toInt = v :=
    BitVec.toInt_ofInt_eq_self n.succ_pos (by simpa using hlo) (by simpa using hhi)
  exact ⟨fun h => h ▸ hself.symm, fun h => h ▸ BitVec.ofInt_toInt⟩

theorem ofInt_eq_iff_of_coordFits {v : Int} {b : BitVec 16} (h : coordFits v = true) :
    BitVec.ofInt 16 v = b ↔ v = b.toInt := by
  obtain ⟨hlo, hhi⟩ := of_decide_eq_true h
  exact ofInt_eq_iff hlo (by omega)

theorem ofInt_eq_iff_of_hueFits {v : Int} {b : BitVec 32} (h : hueFits v = true) :
    BitVec.ofInt 32 v = b ↔ v = b.toInt := by
  obtain ⟨hlo, hhi⟩ := of_decide_eq_true h
  exact ofInt_eq_iff hlo (by omega)

theorem ofNat_eq_iff_of_offsetFits {o : Nat} {b : BitVec 24} (h : offsetFits o = true) :
    BitVec.ofNat 24 o = b ↔ o = b.toNat := by
  rw [← BitVec.toNat_inj, BitVec.toNat_ofNat, Nat.mod_eq_of_lt (of_decide_eq_true h)]

theorem flagBit_eq_field_iff {f : Bool} {w : CommandWord} {i : Nat} :
    flagBit f = field w i 1 ↔ f = flagField w i := by
  rw [flagField, BitVec.getLsbD_eq_extractLsb', ← field]
  generalize field w i 1 = b
  revert b
  cases f <;> decide

theorem coordFits_toInt (b : BitVec 16) : coordFits b.toInt = true :=
  decide_eq_true ⟨b.le_toInt, b.toInt_le⟩

theorem hueFits_toInt (b : BitVec 32) : hueFits b.toInt = true :=
  decide_eq_true ⟨b.le_toInt, b.toInt_le⟩

theorem offsetFits_toNat (b : BitVec 24) : offsetFits b.toNat = true :=
  decide_eq_true b.isLt

/-! ### R84's table as a partial map from words to opcodes -/

/-- The row of R84's table for an opcode. -/
def Opcode.row (op : Opcode) : OpRow := (opcodeTable.find? fun r => r.opcode = op).get (by cases op <;> rfl)

/-- The word matches the row of the opcode: `w & mask = match` (R84). -/
def Opcode.Names (op : Opcode) (w : CommandWord) : Prop := w &&& op.row.mask = op.row.pattern

theorem Opcode.row_mem (op : Opcode) : op.row ∈ opcodeTable :=
  List.mem_of_find?_eq_some (Option.some_get _).symm

theorem Opcode.row_opcode (op : Opcode) : op.row.opcode = op := by cases op <;> rfl

theorem row_of_mem_opcodeTable : ∀ r ∈ opcodeTable, r.opcode.row = r := by decide

theorem OpRow.hits_iff_names {r : OpRow} (hr : r ∈ opcodeTable) {w : CommandWord} :
    r.hits w = true ↔ r.opcode.Names w := by
  rw [Opcode.Names, row_of_mem_opcodeTable r hr, OpRow.hits, decide_eq_true_iff]

/-- Where the row's mask is all ones, the word agrees with the row's pattern. -/
theorem Opcode.Names.field_eq {op : Opcode} {w : CommandWord} (h : op.Names w) {lo n : Nat}
    (hmask : field op.row.mask lo n = BitVec.allOnes n) : field w lo n = field op.row.pattern lo n := by
  rw [← h, field_and, hmask, BitVec.and_allOnes]

/-- Every row fixes the opcode field. -/
theorem Opcode.Names.opcode_field {op : Opcode} {w : CommandWord} (h : op.Names w) :
    field w 60 4 = field op.row.pattern 60 4 :=
  h.field_eq ((by decide : ∀ r ∈ opcodeTable, field r.mask 60 4 = BitVec.allOnes 4) _ op.row_mem)

theorem opcodeAssigned_pattern (op : Opcode) : opcodeAssigned (field op.row.pattern 60 4) = true :=
  (by decide : ∀ r ∈ opcodeTable, opcodeAssigned (field r.pattern 60 4) = true) _ op.row_mem

/-- No two rows share an opcode field. -/
theorem Opcode.pattern_injective {op op' : Opcode}
    (h : field op.row.pattern 60 4 = field op'.row.pattern 60 4) : op = op' := by
  have hrows : ∀ r ∈ opcodeTable, ∀ r' ∈ opcodeTable, field r.pattern 60 4 = field r'.pattern 60 4 →
      r.opcode = r'.opcode := by decide
  simpa only [Opcode.row_opcode] using hrows _ op.row_mem _ op'.row_mem h

theorem Opcode.Names.unique {op op' : Opcode} {w : CommandWord} (h : op.Names w) (h' : op'.Names w) : op = op' :=
  Opcode.pattern_injective (h.opcode_field.symm.trans h'.opcode_field)

/-! ### The decoder of the command port, by the row a word matches (R84, R88) -/

theorem decodeCommand_of_names {op : Opcode} {w : CommandWord} (h : op.Names w) :
    decodeCommand w = .ok (assemble w op) := by
  unfold decodeCommand
  split
  · next r hfind =>
    have hhit : r.hits w = true := List.find?_some (p := fun r => OpRow.hits r w) hfind
    have hnames := (OpRow.hits_iff_names (List.mem_of_find?_eq_some hfind)).mp hhit
    rw [hnames.unique h]
  · next hnone =>
    have hhit := (OpRow.hits_iff_names op.row_mem).mpr (op.row_opcode.symm ▸ h)
    exact absurd hhit (List.find?_eq_none.mp hnone _ op.row_mem)

theorem decodeCommand_of_unnamed {w : CommandWord} (h : ∀ op : Opcode, ¬ op.Names w) :
    decodeCommand w = .error (if opcodeAssigned (field w 60 4) then .reservedBits else .reservedOpcode) := by
  have hnone : opcodeTable.find? (fun r => r.hits w) = none :=
    List.find?_eq_none.mpr fun r hr hhit => h r.opcode ((OpRow.hits_iff_names hr).mp hhit)
  rw [decodeCommand, hnone]

theorem decodeCommand_eq_ok_iff {w : CommandWord} {i : Instr} :
    decodeCommand w = .ok i ↔ ∃ op : Opcode, op.Names w ∧ assemble w op = i := by
  refine ⟨fun h => ?_, fun ⟨op, hnames, hi⟩ => hi ▸ decodeCommand_of_names hnames⟩
  by_cases hnamed : ∃ op : Opcode, op.Names w
  · obtain ⟨op, hnames⟩ := hnamed
    exact ⟨op, hnames, Except.ok.inj ((decodeCommand_of_names hnames).symm.trans h)⟩
  · rw [decodeCommand_of_unnamed (not_exists.mp hnamed)] at h
    cases h

theorem assemble_opcode (w : CommandWord) (op : Opcode) : (assemble w op).opcode = some op := by cases op <;> rfl

/-- Whatever the word, its fields are in the ranges of R82. -/
theorem assemble_wf (w : CommandWord) (op : Opcode) : (assemble w op).wf = true := by
  cases op with
  | wrpix => exact Bool.and_eq_true_iff.mpr ⟨coordFits_toInt _, coordFits_toInt _⟩
  | ldb | stb => exact offsetFits_toNat _
  | chsv => exact hueFits_toInt _
  | begin_ | fill | swap | qnt | c333 | c444 | c888 => rfl

theorem names_of_decodeCommand {w : CommandWord} {i : Instr} {op : Opcode} (h : decodeCommand w = .ok i)
    (hop : i.opcode = some op) : op.Names w := by
  obtain ⟨op', hnames, rfl⟩ := decodeCommand_eq_ok_iff.mp h
  rw [assemble_opcode, Option.some.injEq] at hop
  exact hop ▸ hnames

/-- Settles O8: the decoder reads the operands off whatever word matches the row, and its answer names the row. -/
theorem wordIsCommandIffItMatchesItsRow : Obligations.WordIsCommandIffItMatchesItsRow := by
  intro w
  refine ⟨?begin, ?wrpix, ?fill, ?swap, ?ldb, ?stb, ?qnt, ?c333, ?c444, ?c888, ?chsv⟩
  case begin => exact ⟨(names_of_decodeCommand · rfl), decodeCommand_of_names (op := .begin_)⟩
  case wrpix =>
    exact ⟨fun ⟨_, _, _, _, h⟩ => names_of_decodeCommand h rfl,
      fun h => ⟨_, _, _, _, decodeCommand_of_names (op := .wrpix) h⟩⟩
  case fill =>
    exact ⟨fun ⟨_, h⟩ => names_of_decodeCommand h rfl, fun h => ⟨_, decodeCommand_of_names (op := .fill) h⟩⟩
  case swap =>
    exact ⟨fun ⟨_, h⟩ => names_of_decodeCommand h rfl, fun h => ⟨_, decodeCommand_of_names (op := .swap) h⟩⟩
  case ldb =>
    exact ⟨fun ⟨_, h⟩ => names_of_decodeCommand h rfl, fun h => ⟨_, decodeCommand_of_names (op := .ldb) h⟩⟩
  case stb =>
    exact ⟨fun ⟨_, _, h⟩ => names_of_decodeCommand h rfl, fun h => ⟨_, _, decodeCommand_of_names (op := .stb) h⟩⟩
  case qnt =>
    exact ⟨fun ⟨_, h⟩ => names_of_decodeCommand h rfl, fun h => ⟨_, decodeCommand_of_names (op := .qnt) h⟩⟩
  case c333 =>
    exact ⟨fun ⟨_, _, _, h⟩ => names_of_decodeCommand h rfl, fun h => ⟨_, _, _, decodeCommand_of_names (op := .c333) h⟩⟩
  case c444 =>
    exact ⟨fun ⟨_, _, _, h⟩ => names_of_decodeCommand h rfl, fun h => ⟨_, _, _, decodeCommand_of_names (op := .c444) h⟩⟩
  case c888 =>
    exact ⟨fun ⟨_, _, _, _, h⟩ => names_of_decodeCommand h rfl,
      fun h => ⟨_, _, _, _, decodeCommand_of_names (op := .c888) h⟩⟩
  case chsv =>
    exact ⟨fun ⟨_, _, _, _, h⟩ => names_of_decodeCommand h rfl,
      fun h => ⟨_, _, _, _, decodeCommand_of_names (op := .chsv) h⟩⟩

/-! ### The encoder against the operands the decoder reads -/

theorem encodingRow (i : Instr) : Laws.EncodingRow.Statement i := by
  cases i with
  | beginCmd => exact Laws.EncodingRow.beginCmd
  | wrpix => exact Laws.EncodingRow.wrpix ..
  | fill => exact Laws.EncodingRow.fill ..
  | swap => exact Laws.EncodingRow.swap ..
  | ldb => exact Laws.EncodingRow.ldb ..
  | stb => exact Laws.EncodingRow.stb ..
  | qnt => exact Laws.EncodingRow.qnt ..
  | c333 => exact Laws.EncodingRow.c333 ..
  | c444 => exact Laws.EncodingRow.c444 ..
  | c888 => exact Laws.EncodingRow.c888 ..
  | chsv => exact Laws.EncodingRow.chsv ..
  | tick => exact Laws.EncodingRow.tick

/-- An instruction with an opcode is encoded as a command word that matches the opcode's row. -/
theorem encode_of_opcode {i : Instr} {op : Opcode} (hop : i.opcode = some op) :
    ∃ w, encode i = .command w ∧ op.Names w := by
  have hrow := encodingRow i
  unfold Laws.EncodingRow.Statement at hrow
  rw [hop] at hrow
  cases henc : encode i with
  | command w =>
    rw [henc] at hrow
    obtain ⟨r, hr, rfl, hhit⟩ := hrow
    exact ⟨w, rfl, (OpRow.hits_iff_names hr).mp hhit⟩
  | tickPort b =>
    rw [henc] at hrow
    exact hrow.elim

/-- On a word that matches its row, an instruction is encoded as the word exactly when its operands are the word's
fields: the fixed fields of R81's format agree by the row, and each operand form is its field. -/
theorem encode_eq_command_iff {i : Instr} {w : CommandWord} {op : Opcode} (hop : i.opcode = some op)
    (hwf : i.wf = true) (hnames : op.Names w) : encode i = .command w ↔ i = assemble w op := by
  have hword : Signal.command w = .command (field w 0 64) := by rw [field_all]
  rw [hword]
  cases i with
  | beginCmd =>
    cases hop
    have hfixed : field w 0 64 = 0x1#4 ++ 0#60 := hnames.field_eq (by decide)
    simp [encode, assemble, hfixed]
  | wrpix rot x y color =>
    cases hop
    obtain ⟨hx, hy⟩ := Bool.and_eq_true_iff.mp hwf
    have hfixed : field w 50 14 = 0x2#4 ++ 0#10 := hnames.field_eq (by decide)
    simp [encode, assemble, and_assoc, append_eq_field_iff, hfixed, toBits_eq_iff,
      ofInt_eq_iff_of_coordFits hx, ofInt_eq_iff_of_coordFits hy]
  | fill color =>
    cases hop
    have hfixed : field w 16 48 = 0x3#4 ++ 0#44 := hnames.field_eq (by decide)
    simp [encode, assemble, append_eq_field_iff, hfixed]
  | swap copy =>
    cases hop
    have hfixed : field w 1 63 = 0x4#4 ++ 0#59 := hnames.field_eq (by decide)
    simp [encode, assemble, append_eq_field_iff, hfixed, flagBit_eq_field_iff]
  | ldb off =>
    cases hop
    have hfixed : field w 32 32 = 0x5#4 ++ 0#28 := hnames.field_eq (by decide)
    have hlow : field w 0 8 = 0#8 := hnames.field_eq (by decide)
    simp [encode, assemble, append_eq_field_iff, hfixed, hlow, ofNat_eq_iff_of_offsetFits hwf]
  | stb off data =>
    cases hop
    have hfixed : field w 32 32 = 0x6#4 ++ 0#28 := hnames.field_eq (by decide)
    simp [encode, assemble, append_eq_field_iff, hfixed, ofNat_eq_iff_of_offsetFits hwf]
  | qnt color =>
    cases hop
    have hfixed : field w 16 48 = 0x8#4 ++ 0#44 := hnames.field_eq (by decide)
    simp [encode, assemble, append_eq_field_iff, hfixed]
  | c333 r g b =>
    cases hop
    have hfixed : field w 24 40 = 0x9#4 ++ 0#36 := hnames.field_eq (by decide)
    simp [encode, assemble, and_assoc, append_eq_field_iff, hfixed]
  | c444 r g b =>
    cases hop
    have hfixed : field w 24 40 = 0xA#4 ++ 0#36 := hnames.field_eq (by decide)
    simp [encode, assemble, and_assoc, append_eq_field_iff, hfixed]
  | c888 gflag r g b =>
    cases hop
    have hfixed : field w 25 39 = 0xB#4 ++ 0#35 := hnames.field_eq (by decide)
    simp [encode, assemble, and_assoc, append_eq_field_iff, hfixed, flagBit_eq_field_iff]
  | chsv gflag hue sat val =>
    cases hop
    have hfixed : field w 49 15 = 0xC#4 ++ 0#11 := hnames.field_eq (by decide)
    simp [encode, assemble, and_assoc, append_eq_field_iff, hfixed, flagBit_eq_field_iff,
      ofInt_eq_iff_of_hueFits hwf]
  | tick => cases hop

theorem eq_tick_of_opcode_eq_none {i : Instr} (h : i.opcode = none) : i = .tick := by
  cases i with
  | tick => rfl
  | _ => cases h

theorem decode_command_of_names {op : Opcode} {w : CommandWord} (h : op.Names w) :
    decode (.command w) = some (assemble w op) := by
  rw [decode, decodeCommand_of_names h, Except.toOption]

theorem decodeTick_eq_some_iff {b : BitVec 1} {i : Instr} : decodeTick b = some i ↔ b = 1#1 ∧ i = .tick := by
  rw [decodeTick, Option.ite_none_right_eq_some, Option.some.injEq, eq_comm (a := Instr.tick)]

/-- Settles O6: a command's word matches its row, so the decoder reads the word's fields, which are the operands. -/
theorem decodeInvertsEncode : Obligations.DecodeInvertsEncode := by
  intro i hwf
  cases hop : i.opcode with
  | none =>
    obtain rfl := eq_tick_of_opcode_eq_none hop
    rfl
  | some op =>
    obtain ⟨w, henc, hnames⟩ := encode_of_opcode hop
    rw [henc, decode_command_of_names hnames, (encode_eq_command_iff hop hwf hnames).mp henc]

/-- Settles O7: a word that decodes matches a row, and the fields the decoder reads fill that row's format again. -/
theorem encodeInvertsDecode : Obligations.EncodeInvertsDecode := by
  intro g i h
  cases g with
  | command w =>
    obtain ⟨op, hnames, rfl⟩ := decodeCommand_eq_ok_iff.mp (Machine.decodeCommand_of_decode h)
    have hwf := assemble_wf w op
    exact ⟨hwf, (encode_eq_command_iff (assemble_opcode w op) hwf hnames).mpr rfl⟩
  | tickPort b =>
    obtain ⟨rfl, rfl⟩ := decodeTick_eq_some_iff.mp h
    exact ⟨rfl, rfl⟩

/-- Settles O5: closed words, evaluated. -/
theorem workedWordsDecode : Obligations.WorkedWordsDecode := by
  unfold Obligations.WorkedWordsDecode
  decide

/-! ### Reserved words (R88) -/

theorem opcodeAssigned_eq_false_iff {op : BitVec 4} :
    opcodeAssigned op = false ↔ op = 0x0#4 ∨ op = 0x7#4 ∨ op = 0xD#4 ∨ op = 0xE#4 ∨ op = 0xF#4 := by
  simp only [opcodeAssigned, Bool.not_eq_false', Bool.or_eq_true, beq_iff_eq, or_assoc]

theorem decodeCommand_of_reservedOpcode {w : CommandWord} (h : opcodeAssigned (field w 60 4) = false) :
    decodeCommand w = .error .reservedOpcode := by
  have hnone : ∀ op : Opcode, ¬ op.Names w := fun op hnames => by
    rw [hnames.opcode_field, opcodeAssigned_pattern] at h
    cases h
  simp [decodeCommand_of_unnamed hnone, h]

/-- A word with a row's opcode that differs from the row's pattern in a field the mask covers is no command. -/
theorem decodeCommand_of_reservedBits (op : Opcode) {w : CommandWord} {lo n : Nat}
    (hop : field w 60 4 = field op.row.pattern 60 4) (hmask : field op.row.mask lo n = BitVec.allOnes n)
    (hne : field w lo n ≠ field op.row.pattern lo n) : decodeCommand w = .error .reservedBits := by
  have hnone : ∀ op' : Opcode, ¬ op'.Names w := fun op' hnames => by
    obtain rfl : op' = op := Opcode.pattern_injective (hnames.opcode_field.symm.trans hop)
    exact hne (hnames.field_eq hmask)
  simp [decodeCommand_of_unnamed hnone, hop, opcodeAssigned_pattern]

end Sys2Proof

namespace Sys2Proof.Machine

/-- An idle host refuses a word that does not decode, by the decoder's reason. -/
theorem step_of_undecodable {s : State} {w : CommandWord} {rest : List Input} {e : DecodeError} (hh : s.host = .idle)
    (hin : s.inputs = .command w :: rest) (hdec : decodeCommand w = .error e) :
    step s = .refused (refusalOf e) := by
  simp only [step, tickDue_of_command hh hin, Bool.false_eq_true, if_false, hh, hin, hdec]

/-- Settles O9: a reserved opcode is in no row's pattern, and a row's mask covers the reserved bits of its format. -/
theorem reservedWordsAreRefused : Obligations.ReservedWordsAreRefused := by
  refine fun s w rest hh hin => ⟨fun hop => ?opcode, fun hbits => ?bits⟩
  case opcode =>
    exact step_of_undecodable hh hin (decodeCommand_of_reservedOpcode (opcodeAssigned_eq_false_iff.mpr hop))
  case bits =>
    refine step_of_undecodable (e := .reservedBits) hh hin ?_
    obtain ⟨hop, hne⟩ | ⟨hop, hne⟩ | ⟨hop, hne⟩ | ⟨hop, hne⟩ | ⟨hop, hne | hne⟩ | ⟨hop, hne⟩ | ⟨hop, hne⟩ |
      ⟨hop, hne⟩ | ⟨hop, hne⟩ | ⟨hop, hne⟩ | ⟨hop, hne⟩ := hbits
    · exact decodeCommand_of_reservedBits .begin_ hop (by decide) hne
    · exact decodeCommand_of_reservedBits .wrpix hop (by decide) hne
    · exact decodeCommand_of_reservedBits .fill hop (by decide) hne
    · exact decodeCommand_of_reservedBits .swap hop (by decide) hne
    · exact decodeCommand_of_reservedBits .ldb hop (by decide) hne
    · exact decodeCommand_of_reservedBits .ldb hop (by decide) hne
    · exact decodeCommand_of_reservedBits .stb hop (by decide) hne
    · exact decodeCommand_of_reservedBits .qnt hop (by decide) hne
    · exact decodeCommand_of_reservedBits .c333 hop (by decide) hne
    · exact decodeCommand_of_reservedBits .c444 hop (by decide) hne
    · exact decodeCommand_of_reservedBits .c888 hop (by decide) hne
    · exact decodeCommand_of_reservedBits .chsv hop (by decide) hne

/-! ### A signal placed at the input ports (R80, R86) -/

/-- A tick event at the head of the inputs with nothing before it is due in every host phase. -/
theorem tickDue_of_tick_zero {s : State} {rest : List Input} (hin : s.inputs = .tick 0 :: rest) :
    tickDue s = true := by
  cases hh : s.host with
  | idle => exact tickDue_of_idle hh (by simp [hin])
  | busy ms => simp [tickDue_of_busy hh, hin]
  | waiting copy => simp [tickDue_of_waiting hh, hin]

/-- Settles O11: a placed tick event is due at once, and a placed command word is what the idle host takes. -/
theorem placedWordIsRunNext : Obligations.PlacedWordIsRunNext := by
  intro s nbits w i hdec
  rw [decodeTableWord, tableSignal] at hdec
  rw [State.withFetchWord, tableSignal]
  by_cases hbyte : nbits ≤ 8
  · rw [if_pos hbyte] at hdec ⊢
    obtain ⟨hb, rfl⟩ := decodeTick_eq_some_iff.mp hdec
    rw [placeSignal, if_pos hb, if_neg (by omega)]
    exact step_of_queuedTick (tickDue_of_tick_zero rfl) rfl
  · rw [if_neg hbyte] at hdec ⊢
    rw [placeSignal, if_pos (by omega)]
    exact step_of_command rfl rfl (decodeCommand_of_decode hdec)

end Sys2Proof.Machine

/-! The family of spec/40_color_codec.md: the quantizer (R110), QNT (R111), bit-replicated promotion (R112 to R114),
demotion from eight bits (R115, R116), and hue, saturation and value (R117 to R120). -/

namespace Sys2Proof.Machine

/-! ### What a codec command answers (R110 to R119) -/

theorem exec_qnt (color : Colour16) (s : State) :
    exec (.qnt color) s = .next (s.respond (rgb444Response (quant565 color))) := rfl

theorem exec_c333 (r g b : BitVec 8) (s : State) :
    exec (.c333 r g b) s = .next (s.respond (c333f (low3 r) (low3 g) (low3 b))) := rfl

theorem exec_c444 (r g b : BitVec 8) (s : State) :
    exec (.c444 r g b) s = .next (s.respond (c444f ⟨low4 r, low4 g, low4 b⟩)) := rfl

theorem exec_c888_truncated (r g b : BitVec 8) (s : State) :
    exec (.c888 false r g b) s = .next (s.respond (truncate888 r g b)) := rfl

theorem exec_c888_gamma (r g b : BitVec 8) (s : State) :
    exec (.c888 true r g b) s =
      .next (s.respond (c444f ⟨gamma4 s.cfg r, gamma4 s.cfg g, gamma4 s.cfg b⟩)) := rfl

theorem exec_chsv (gflag : Bool) (hue : Int) (sat val : BitVec 8) (s : State) :
    exec (.chsv gflag hue sat val) s = .next (s.respond (hsvToRgb s.cfg gflag hue sat val)) := rfl

/-! ### The quantizer (R110, R111) -/

/-- A slice depends on the bits at its own places alone. -/
theorem extractLsb'_congr {w lo n : Nat} {c d : BitVec w}
    (h : ∀ i < n, c.getLsbD (lo + i) = d.getLsbD (lo + i)) : c.extractLsb' lo n = d.extractLsb' lo n :=
  BitVec.eq_of_getLsbD_eq fun i hi => by simp only [BitVec.getLsbD_extractLsb', h i hi]

theorem quant565_congr {c d : Colour16}
    (h : ∀ n, n ≠ 11 → n ≠ 6 → n ≠ 5 → n ≠ 0 → c.getLsbD n = d.getLsbD n) : quant565 c = quant565 d := by
  have hslice : ∀ lo, lo = 12 ∨ lo = 7 ∨ lo = 1 → c.extractLsb' lo 4 = d.extractLsb' lo 4 := fun lo hlo =>
    extractLsb'_congr fun i hi => h (lo + i) (by omega) (by omega) (by omega) (by omega)
  rw [quant565, hslice 12 (by decide), hslice 7 (by decide), hslice 1 (by decide), quant565]

/-- A four-bit slice is a shift and the mask `0xF`. -/
theorem toNat_extractLsb'_four (c : Colour16) (lo : Nat) : (c.extractLsb' lo 4).toNat = (c.toNat >>> lo) &&& 0xF := by
  rw [BitVec.extractLsb'_toNat]
  exact (Nat.and_two_pow_sub_one_eq_mod _ 4).symm

/-- Settles O12: a slice is a shift and a mask, needless for the top four bits, and no slice has a discarded bit. -/
theorem quantizerTakesTopFourBits : Obligations.QuantizerTakesTopFourBits := by
  refine ⟨fun c => ⟨rfl, ?red, toNat_extractLsb'_four c 7, toNat_extractLsb'_four c 1⟩, fun _ _ => quant565_congr⟩
  case red =>
    have htop : c.toNat >>> 12 < 2 ^ 4 := by
      rw [Nat.shiftRight_eq_div_pow]
      omega
    rw [quant565, BitVec.extractLsb'_toNat, Nat.mod_eq_of_lt htop]

/-- Settles O13: QNT responds the three slices on the response port. -/
theorem qntResponds : Obligations.QntResponds := fun c s => exec_qnt c s

/-! ### Promotion to colour16 (R112 to R114) -/

/-- A promoted value as bits: the repeated top bits below, the value itself above (R112). -/
theorem getLsbD_promote {n m i : Nat} (v : BitVec n) (hi : i < m) :
    (promote n m v).getLsbD i = if i < m - n then v.getLsbD (2 * n - m + i) else v.getLsbD (i - (m - n)) := by
  rw [promote, BitVec.getLsbD_setWidth, decide_eq_true hi, Bool.true_and, BitVec.getLsbD_append]
  split
  · next hlow => rw [BitVec.getLsbD_extractLsb', decide_eq_true hlow, Bool.true_and]
  · rfl

/-- The top bits of a promoted value are the value promoted to that many bits. -/
theorem extractLsb'_promote {n m k : Nat} (v : BitVec n) (hn : n ≤ k) (hk : k ≤ m) (hm : m ≤ 2 * n) :
    (promote n m v).extractLsb' (m - k) k = promote n k v := by
  refine BitVec.eq_of_getLsbD_eq fun i hi => ?_
  rw [BitVec.getLsbD_extractLsb', decide_eq_true hi, Bool.true_and, getLsbD_promote v (by omega), getLsbD_promote v hi]
  by_cases hlow : i < k - n
  · rw [if_pos (by omega), if_pos hlow]
    congr 1
    omega
  · rw [if_neg (by omega), if_neg hlow]
    congr 1
    omega

theorem promote_self {n : Nat} (v : BitVec n) : promote n n v = v := by
  refine BitVec.eq_of_getLsbD_eq fun i hi => ?_
  rw [getLsbD_promote v hi, Nat.sub_self, if_neg (Nat.not_lt_zero i), Nat.sub_zero]

/-- The quantizer takes the top four bits of each packed field (R110, R83). -/
theorem quant565_pack565 (r : BitVec 5) (g : BitVec 6) (b : BitVec 5) :
    quant565 (pack565 r g b) = ⟨r.extractLsb' 1 4, g.extractLsb' 2 4, b.extractLsb' 1 4⟩ := by
  have hr : (pack565 r g b).extractLsb' 12 4 = r.extractLsb' 1 4 := by
    rw [pack565, BitVec.extractLsb'_append_eq_of_le (by decide), BitVec.extractLsb'_append_eq_of_le (by decide)]
  have hg : (pack565 r g b).extractLsb' 7 4 = g.extractLsb' 2 4 := by
    rw [pack565, BitVec.extractLsb'_append_eq_of_le (by decide), BitVec.extractLsb'_append_eq_of_add_le (by decide)]
  have hb : (pack565 r g b).extractLsb' 1 4 = b.extractLsb' 1 4 := by
    rw [pack565, BitVec.extractLsb'_append_eq_of_add_le (by decide)]
  rw [quant565, hr, hg, hb]

/-- The quantizer undoes the promotion from four bits (the law of R114). -/
theorem quant565_c444f (c : Rgb444) : quant565 (c444f c) = c := by
  have hfive : ∀ v : BitVec 4, (promote 4 5 v).extractLsb' 1 4 = v := fun v =>
    (extractLsb'_promote (k := 4) v (by decide) (by decide) (by decide)).trans (promote_self v)
  have hsix : ∀ v : BitVec 4, (promote 4 6 v).extractLsb' 2 4 = v := fun v =>
    (extractLsb'_promote (k := 4) v (by decide) (by decide) (by decide)).trans (promote_self v)
  rw [c444f, quant565_pack565, hfive, hsix, hfive]

/-- The quantizer of a colour promoted from three bits promotes to four (the corner case of R113). -/
theorem quant565_c333f (r g b : BitVec 3) :
    quant565 (c333f r g b) = ⟨promote 3 4 r, promote 3 4 g, promote 3 4 b⟩ := by
  have hfive : ∀ v : BitVec 3, (promote 3 5 v).extractLsb' 1 4 = promote 3 4 v := fun v =>
    extractLsb'_promote (k := 4) v (by decide) (by decide) (by decide)
  have hsix : ∀ v : BitVec 3, (promote 3 6 v).extractLsb' 2 4 = promote 3 4 v := fun v =>
    extractLsb'_promote (k := 4) v (by decide) (by decide) (by decide)
  rw [c333f, quant565_pack565, hfive, hsix, hfive]

/-- `C333f` as bits: each channel, then its most significant bits again (R113). -/
theorem c333f_eq_append (r g b : BitVec 3) :
    c333f r g b = r ++ r.extractLsb' 1 2 ++ g ++ g ++ b ++ b.extractLsb' 1 2 := by
  have hfive : ∀ v : BitVec 3, promote 3 5 v = v ++ v.extractLsb' 1 2 := fun _ => BitVec.setWidth_eq _
  have hsix : ∀ v : BitVec 3, promote 3 6 v = v ++ v := fun v =>
    (BitVec.setWidth_eq _).trans (congrArg (v ++ ·) BitVec.extractLsb'_eq_self)
  rw [c333f, hfive, hsix, hfive, pack565, BitVec.append_assoc', BitVec.append_assoc', BitVec.cast_eq, BitVec.cast_eq]

/-- `C444f` as bits (R114). -/
theorem c444f_eq_append (r g b : BitVec 4) :
    c444f ⟨r, g, b⟩ = r ++ r.extractLsb' 3 1 ++ g ++ g.extractLsb' 2 2 ++ b ++ b.extractLsb' 3 1 := by
  have hfive : ∀ v : BitVec 4, promote 4 5 v = v ++ v.extractLsb' 3 1 := fun _ => BitVec.setWidth_eq _
  have hsix : ∀ v : BitVec 4, promote 4 6 v = v ++ v.extractLsb' 2 2 := fun _ => BitVec.setWidth_eq _
  rw [c444f, hfive, hsix, hfive, pack565, BitVec.append_assoc', BitVec.append_assoc', BitVec.cast_eq, BitVec.cast_eq]

theorem promote_three_four (v : BitVec 3) : promote 3 4 v = v ++ v.extractLsb' 2 1 := BitVec.setWidth_eq _

/-- A slice inside the low three bits is the operand's own slice. -/
theorem extractLsb'_low3 (v : BitVec 8) {lo n : Nat} (h : lo + n ≤ 3) :
    (low3 v).extractLsb' lo n = v.extractLsb' lo n := BitVec.extractLsb'_extractLsb'_of_le h

/-- A slice inside the low four bits is the operand's own slice. -/
theorem extractLsb'_low4 (v : BitVec 8) {lo n : Nat} (h : lo + n ≤ 4) :
    (low4 v).extractLsb' lo n = v.extractLsb' lo n := BitVec.extractLsb'_extractLsb'_of_le h

/-- Settles O14: the response is `c333f` of the low bits, written out as bits, and its quantizer is promotion to four. -/
theorem c333Responds : Obligations.C333Responds := by
  intro r g b s
  refine ⟨_, exec_c333 r g b s, ?bits, ?quantized⟩
  case bits =>
    rw [c333f_eq_append, extractLsb'_low3 r (by decide), extractLsb'_low3 b (by decide)]
    rfl
  case quantized =>
    simp only [quant565_c333f, promote_three_four, extractLsb'_low3 _ (show 2 + 1 ≤ 3 by decide)]
    rfl

/-- Settles O15: the response is `c444f` of the low bits, written out as bits, and the quantizer undoes it. -/
theorem c444Responds : Obligations.C444Responds := by
  intro r g b s
  refine ⟨_, exec_c444 r g b s, ?bits, quant565_c444f _⟩
  rw [c444f_eq_append, extractLsb'_low4 r (by decide), extractLsb'_low4 g (by decide), extractLsb'_low4 b (by decide)]
  rfl

/-! ### Demotion from eight bits (R115, R116) -/

/-- White is the top of every legal table (R115). -/
theorem gamma4_white {c : Config} (h : GammaLegal c.gamma) : gamma4 c 255#8 = 15#4 := h.2

theorem c444f_white : c444f ⟨15#4, 15#4, 15#4⟩ = 0xFFFF#16 := by decide

theorem c444f_black : c444f ⟨0#4, 0#4, 0#4⟩ = 0x0000#16 := by decide

theorem truncate888_white : truncate888 255#8 255#8 255#8 = 0xFFFF#16 := by decide

/-- Settles O16: with gamma the response is a promotion, which the quantizer undoes; white is `0xFFFF` either way. -/
theorem c888Responds : Obligations.C888Responds := by
  refine ⟨fun r g b s => exec_c888_truncated r g b s,
    fun r g b s => ⟨_, exec_c888_gamma r g b s, quant565_c444f _, ?promotion⟩, fun s hlegal => ?white⟩
  case promotion => rw [quant565_c444f]
  case white =>
    rw [exec_c888_gamma, exec_c888_truncated, gamma4_white hlegal.gamma_legal, c444f_white, truncate888_white]

/-! ### The hue stage (R117) -/

/-- The six sextants of R117 as intervals of the reduced hue. -/
theorem hueTriple_eq_ite (h : Nat) :
    hueTriple h = if h < 256 then (255, h % 256, 0) else if h < 512 then (255 - h % 256, 255, 0)
      else if h < 768 then (0, 255, h % 256) else if h < 1024 then (0, 255 - h % 256, 255)
      else if h < 1280 then (h % 256, 0, 255) else (255, 0, 255 - h % 256) := by
  have hlo : h &&& 255 = h % 256 := Nat.and_two_pow_sub_one_eq_mod h 8
  have hsx : h >>> 8 = h / 256 := Nat.shiftRight_eq_div_pow h 8
  rw [hueTriple, hlo, hsx]
  split_ifs
  · simp only [show h / 256 = 0 by omega]
  · simp only [show h / 256 = 1 by omega]
  · simp only [show h / 256 = 2 by omega]
  · simp only [show h / 256 = 3 by omega]
  · simp only [show h / 256 = 4 by omega]
  · obtain ⟨k, hk⟩ : ∃ k, h / 256 = k + 5 := ⟨h / 256 - 5, by omega⟩
    simp only [hk]

/-- A natural number congruent to the hue and below 1536 is the reduced hue. -/
theorem hueReduced_eq {hue : Int} {h : Nat} (hh : (h : Int) = hue % 1536) : hueReduced hue = h := by
  rw [hueReduced, ← hh, Int.toNat_natCast]

/-! ### Saturation and value (R118) -/

/-- The two stages of a channel, with R118's shifts as divisions (R120). -/
theorem scaleValue_saturate (ch sat val : Nat) :
    scaleValue (saturate ch sat) val = (255 - (255 - ch) * (sat + 1) / 256) * (val + 1) / 256 := by
  rw [scaleValue, saturate, Nat.shiftRight_eq_div_pow, Nat.shiftRight_eq_div_pow]

theorem toFour_eq_ite (c : Config) (gflag : Bool) (ch : Nat) :
    toFour c gflag ch = if gflag then c.gamma.get (BitVec.ofNat 8 ch).toFin else BitVec.ofNat 4 (ch / 16) := by
  rw [toFour, gamma4, Nat.shiftRight_eq_div_pow]

theorem toFour_false_zero (c : Config) : toFour c false 0 = 0#4 := rfl

theorem toFour_true_zero (c : Config) : toFour c true 0 = c.gamma.get 0 := rfl

theorem saturate_le (ch sat : Nat) : saturate ch sat ≤ 255 := Nat.sub_le _ _

/-- Saturation 0 makes every channel full. -/
theorem saturate_zero (ch : Nat) : saturate ch 0 = 255 := by
  rw [saturate, Nat.shiftRight_eq_div_pow]
  omega

theorem scaleValue_full (ch : Nat) : scaleValue ch 255 = ch := by
  rw [scaleValue, Nat.shiftRight_eq_div_pow]
  omega

/-- Value 0 makes every eight-bit channel 0. -/
theorem scaleValue_zero {ch : Nat} (h : ch ≤ 255) : scaleValue ch 0 = 0 := by
  rw [scaleValue, Nat.shiftRight_eq_div_pow]
  omega

theorem hsvChannel_white (c : Config) (ch : Nat) : hsvChannel c false ch (0#8).toNat (255#8).toNat = 15#4 := by
  rw [hsvChannel, show (0#8).toNat = 0 from rfl, show (255#8).toNat = 255 from rfl, saturate_zero, scaleValue_full]
  rfl

theorem hsvChannel_value_zero (c : Config) (gflag : Bool) (ch sat : Nat) :
    hsvChannel c gflag ch sat (0#8).toNat = toFour c gflag 0 := by
  rw [hsvChannel, show (0#8).toNat = 0 from rfl, scaleValue_zero (saturate_le ch sat)]

/-! ### CHSV (R119) -/

/-- Settles O17: the sextants as intervals, and the shifts of the two stages as divisions. -/
theorem chsvResponds : Obligations.ChsvResponds := by
  intro gflag hue sat val s h lo r8 g8 b8 hh hlo htriple stage four
  subst hlo
  have hhue : hueTriple (hueReduced hue) = (r8, g8, b8) := by
    rw [hueReduced_eq hh, hueTriple_eq_ite, htriple]
  have hchannel : ∀ ch, hsvChannel s.cfg gflag ch sat.toNat val.toNat = four ch := fun ch => by
    rw [hsvChannel, scaleValue_saturate, toFour_eq_ite]
  rw [exec_chsv, hsvToRgb, hhue, hchannel, hchannel, hchannel]
  rfl

/-- CHSV of a saturation and value that give every channel the same four bits responds a grey, whatever the hue. -/
theorem exec_chsv_grey {gflag : Bool} {sat val : BitVec 8} {s : State} {v : BitVec 4}
    (h : ∀ ch, hsvChannel s.cfg gflag ch sat.toNat val.toNat = v) (hue : Int) :
    exec (.chsv gflag hue sat val) s = .next (s.respond (c444f ⟨v, v, v⟩)) := by
  rw [exec_chsv, hsvToRgb, h, h, h]

/-- Settles O18: CHSV reads the hue through its remainder, and saturation 0 or value 0 gives a grey. -/
theorem chsvCornerCases : Obligations.ChsvCornerCases := by
  intro gflag hue hue' sat val s
  refine ⟨fun hmod => ?wrap, ?white, ?black, ?grey⟩
  case wrap => rw [exec_chsv, exec_chsv, hsvToRgb, hsvToRgb, hueReduced, hueReduced, hmod]
  case white =>
    rw [exec_chsv_grey (hsvChannel_white s.cfg) hue, c444f_white]
    rfl
  case black =>
    rw [exec_chsv_grey (fun ch => hsvChannel_value_zero s.cfg false ch sat.toNat) hue, toFour_false_zero, c444f_black]
    rfl
  case grey =>
    rw [exec_chsv_grey (fun ch => hsvChannel_value_zero s.cfg true ch sat.toNat) hue, toFour_true_zero]
    rfl

end Sys2Proof.Machine

/-! The family of spec/41_framebuffer.md: coordinates (R140), the encoder and the decoder of a pixel (R141, R142), drawing
(R143, R144), SWAP and the copy-forward (R145, R146), raw access (R147 to R149), and what the layout guarantees (R150 to
R153). The bits of a region are read through `pixelBit` (R142). -/

namespace Sys2Proof.Machine

/-! ### Coordinates (R140, decision D5) -/

theorem visible_iff {c : Config} {rot : Rotation} {x y : Int} : visible c rot x y = true ↔
    0 ≤ x ∧ x < (visibleArea c rot).1 ∧ 0 ≤ y ∧ y < (visibleArea c rot).2 := decide_eq_true_iff

theorem xform_eq_none_iff {c : Config} {rot : Rotation} {x y : Int} :
    xform c rot x y = none ↔ visible c rot x y = false := by
  unfold xform
  split <;> simp_all

/-- A transform takes the visible area into the physical pixels. -/
theorem rotate_physical {c : Config} {rot : Rotation} {x y : Int} (h : visible c rot x y = true) :
    (0 ≤ (rotate c x y rot).1 ∧ (rotate c x y rot).1 < c.width) ∧
    (0 ≤ (rotate c x y rot).2 ∧ (rotate c x y rot).2 < c.height) := by
  rw [visible_iff] at h
  cases rot <;> simp only [visibleArea, rotate] at h ⊢ <;> omega

theorem xform_eq_some_iff {c : Config} {rot : Rotation} {x y : Int} {px py : Nat} :
    xform c rot x y = some (px, py) ↔ visible c rot x y = true ∧ rotate c x y rot = ((px : Int), (py : Int)) := by
  cases hv : visible c rot x y with
  | false => simp [xform, hv]
  | true =>
    obtain ⟨hx, hy⟩ := rotate_physical hv
    rw [xform, if_pos hv, Option.some.injEq, Prod.mk.injEq, Prod.ext_iff]
    simp only [true_and]
    omega

/-- The coordinate that a rotation takes to a physical pixel. -/
def unrotate (c : Config) (px py : Int) : Rotation → Int × Int
  | .r0 => (px, py)
  | .r90 => (py, c.width - 1 - px)
  | .r180 => (c.width - 1 - px, c.height - 1 - py)
  | .r270 => (c.height - 1 - py, px)

theorem xform_unrotate {c : Config} {px py : Nat} (hx : px < c.width) (hy : py < c.height) (rot : Rotation) :
    xform c rot (unrotate c px py rot).1 (unrotate c px py rot).2 = some (px, py) := by
  rw [xform_eq_some_iff, visible_iff]
  cases rot <;> simp only [visibleArea, rotate, unrotate, sub_sub_cancel, and_true] <;> omega

theorem rotate_injective {c : Config} {rot : Rotation} {x y x' y' : Int}
    (h : rotate c x y rot = rotate c x' y' rot) : x = x' ∧ y = y' := by
  cases rot <;> simp only [rotate, Prod.mk.injEq] at h <;> omega

/-- Settles O19: `xform` answers the transform of a visible coordinate, and `unrotate` goes back. -/
theorem xformMapsTheVisibleAreaOntoThePanel : Obligations.XformMapsTheVisibleAreaOntoThePanel := by
  refine fun c rot => ⟨fun x y => ⟨?bounds, fun px py h => ?formula⟩,
    fun px py hx hy => ⟨_, _, xform_unrotate hx hy rot⟩, fun x y x' y' ⟨px, py⟩ h h' => ?injective⟩
  case bounds =>
    rw [xform_eq_none_iff, ← Bool.not_eq_true, visible_iff]
    cases rot <;> simp [visibleArea] <;> omega
  case formula =>
    obtain ⟨hx, hy⟩ := xform_physical h
    refine ⟨hx, hy, ?_⟩
    rw [← (xform_eq_some_iff.mp h).2]
    cases rot <;> rfl
  case injective =>
    exact rotate_injective ((xform_eq_some_iff.mp h).2.trans (xform_eq_some_iff.mp h').2.symm)

/-! ### Micro-operations with different targets -/

/-- The byte a micro-operation writes is its own doing, where no other entry of the list writes it: the entries before it
have touched other bytes alone. -/
theorem runAll_read_target {m : Memory} (hwf : Memory.wf m) {ms : List Micro} (hnodup : (ms.map Micro.target).Nodup)
    {u : Micro} (hu : u ∈ ms) : ∃ before, (∀ w ∈ before, w ∈ ms ∧ w.target ≠ u.target) ∧
      Memory.read (runAll ms m) u.target = Memory.read (u.effect (runAll before m)) u.target := by
  obtain ⟨before, after, rfl⟩ := List.append_of_mem hu
  rw [List.map_append, List.map_cons, List.nodup_middle, List.nodup_cons, List.mem_append, not_or] at hnodup
  obtain ⟨⟨hbefore, hafter⟩, _⟩ := hnodup
  refine ⟨before, fun w hw => ⟨by simp [hw], fun he => hbefore (he ▸ List.mem_map_of_mem hw)⟩, ?_⟩
  rw [runAll_append, runAll_cons]
  exact runAll_read_other (u.wf_effect (runAll_wf hwf before))
    fun w hw he => hafter (he ▸ List.mem_map_of_mem hw)

theorem runAll_read_upd {m : Memory} (hwf : Memory.wf m) {ms : List Micro} (hnodup : (ms.map Micro.target).Nodup)
    {a : Nat} {mask v : Byte} (hu : .upd a mask v ∈ ms) :
    Memory.read (runAll ms m) a = Memory.read m a &&& ~~~mask ||| v := by
  obtain ⟨before, hbefore, heq⟩ := runAll_read_target hwf hnodup hu
  rw [Micro.effect, Micro.target, Memory.read_write_same (runAll_wf hwf before)] at heq
  rw [heq, runAll_read_other (a := a) hwf fun w hw => (hbefore w hw).2]

theorem runAll_read_write {m : Memory} (hwf : Memory.wf m) {ms : List Micro} (hnodup : (ms.map Micro.target).Nodup)
    {a : Nat} {v : Byte} (hu : .write a v ∈ ms) : Memory.read (runAll ms m) a = v := by
  obtain ⟨before, _, heq⟩ := runAll_read_target hwf hnodup hu
  rw [Micro.effect, Micro.target, Memory.read_write_same (runAll_wf hwf before)] at heq
  exact heq

theorem runAll_read_copy {m : Memory} (hwf : Memory.wf m) {ms : List Micro} (hnodup : (ms.map Micro.target).Nodup)
    {src dst : Nat} (hu : .copy src dst ∈ ms) (hsrc : ∀ w ∈ ms, w.target ≠ src) :
    Memory.read (runAll ms m) dst = Memory.read m src := by
  obtain ⟨before, hbefore, heq⟩ := runAll_read_target hwf hnodup hu
  rw [Micro.effect, Micro.target, Memory.read_write_same (runAll_wf hwf before)] at heq
  rw [heq, runAll_read_other hwf fun w hw => hsrc w (hbefore w hw).1]

/-- Micro-operations that keep to a region leave every byte outside it alone (R52). -/
theorem runAll_read_outside {m : Memory} (hwf : Memory.wf m) {c : Config} {k : Region} {ms : List Micro}
    (hlegal : ∀ u ∈ ms, u.legal c k) {a : Nat} (ha : ¬inRegion c k a) :
    Memory.read (runAll ms m) a = Memory.read m a :=
  runAll_read_other hwf fun u hu he => ha (he ▸ Micro.legal_target (hlegal u hu))

/-! ### Addresses, by region and digits (R50, R55) -/

theorem fb_injective (c : Config) (k : Region) : Function.Injective (fb c k) := fun _ _ h => Nat.add_left_cancel h

theorem inRegion_iff {c : Config} {k : Region} {a : Nat} : inRegion c k a ↔ ∃ o < c.bufSize, fb c k o = a := by
  refine ⟨fun ⟨hlo, hhi⟩ => ⟨a - fb c k 0, by omega, ?_⟩, fun ⟨o, ho, heq⟩ => heq ▸ inRegion_fb ho⟩
  rw [fb_eq]
  omega

theorem columnByte_eq (c : Config) (row j px : Nat) :
    columnByte c row j px = row * c.width * 3 + j * c.width + px := by
  rw [columnByte, Nat.add_mul, Nat.mul_right_comm]

theorem columnByte_eq_baseOffset (c : Config) (px py j : Nat) :
    columnByte c (scanRow c py) j px = baseOffset c px py + j * c.width := by
  rw [columnByte_eq, baseOffset, Nat.add_right_comm]

/-- The address of a byte of a column names its region, scan row, stride and column. -/
theorem fb_columnByte_inj {c : Config} {k k' : Region} {row row' px px' : Nat} {j j' : Fin 3} (hrow : row < c.nrows)
    (hrow' : row' < c.nrows) (hx : px < c.width) (hx' : px' < c.width)
    (h : fb c k (columnByte c row j px) = fb c k' (columnByte c row' j' px')) :
    k = k' ∧ row = row' ∧ j = j' ∧ px = px' := by
  obtain rfl : k = k' := inRegion_disjoint (inRegion_fb (columnByte_lt hrow j.isLt hx))
    (h ▸ inRegion_fb (columnByte_lt hrow' j'.isLt hx'))
  obtain ⟨hmod, hstride, hquot⟩ := columnByte_digits (row := row) j.isLt hx
  obtain ⟨hmod', hstride', hquot'⟩ := columnByte_digits (row := row') j'.isLt hx'
  rw [fb_injective c k h] at hmod hstride hquot
  exact ⟨rfl, hquot.symm.trans hquot', Fin.ext (hstride.symm.trans hstride'), hmod.symm.trans hmod'⟩

/-! ### The encoder as three byte updates, one for each stride (R141) -/

/-- The bits of a column's byte that belong to the upper or the lower pixel. -/
def pixelMask : Bool → Fin 3 → Byte
  | true, 0 => 0x1C#8
  | true, 1 => 0x1D#8
  | true, 2 => 0x1F#8
  | false, 0 => 0xE3#8
  | false, 1 => 0xE2#8
  | false, 2 => 0xE0#8

/-- What those bits are for a colour. -/
def pixelValue (v : Rgb444) : Bool → Fin 3 → Byte
  | true, 0 => bitAt v.r 1 2 ||| bitAt v.g 1 3 ||| bitAt v.b 1 4
  | true, 1 => bitAt v.r 2 2 ||| bitAt v.g 2 3 ||| bitAt v.b 2 4 ||| bitAt v.b 0 0
  | true, 2 => bitAt v.r 3 2 ||| bitAt v.g 3 3 ||| bitAt v.b 3 4 ||| bitAt v.g 0 1 ||| bitAt v.r 0 0
  | false, 0 => bitAt v.r 1 5 ||| bitAt v.g 1 6 ||| bitAt v.b 1 7 ||| bitAt v.b 0 1 ||| bitAt v.g 0 0
  | false, 1 => bitAt v.r 2 5 ||| bitAt v.g 2 6 ||| bitAt v.b 2 7 ||| bitAt v.r 0 1
  | false, 2 => bitAt v.r 3 5 ||| bitAt v.g 3 6 ||| bitAt v.b 3 7

/-- The update of one byte of a pixel's column. -/
def pixelUpd (c : Config) (k : Region) (px py : Nat) (v : Rgb444) (j : Fin 3) : Micro :=
  .upd (fb c k (columnByte c (scanRow c py) j px)) (pixelMask (upperHalf c py) j) (pixelValue v (upperHalf c py) j)

theorem encodePixel_eq (c : Config) (k : Region) (px py : Nat) (v : Rgb444) :
    encodePixel c k px py v = (List.finRange 3).map (pixelUpd c k px py v) := by
  have hstrides : (List.finRange 3).map (pixelUpd c k px py v) =
      [pixelUpd c k px py v 0, pixelUpd c k px py v 1, pixelUpd c k px py v 2] := rfl
  rw [hstrides]
  cases hu : upperHalf c py <;>
    simp [encodePixel, pixelUpd, columnByte_eq_baseOffset, hu, pixelMask, pixelValue]

theorem getElem_bitAt (v : BitVec 4) (p : Nat) {pos i : Nat} (hi : i < 8) :
    (bitAt v p pos)[i] = (decide (i = pos) && v.getLsbD p) := by
  rw [← BitVec.getLsbD_eq_getElem, bitAt, BitVec.getLsbD_shiftLeft, BitVec.getLsbD_setWidth, BitVec.getLsbD_ofBool]
  grind

/-- A pixel's mask covers the places `Loc` gives its bits, and none of the other pixel's. -/
theorem getLsbD_pixelMask (upper upper' : Bool) (ch : Channel) (p : Plane) :
    (pixelMask upper (bitPlace (upper', ch, p)).1).getLsbD (bitPlace (upper', ch, p)).2 = (upper' == upper) := by
  cases ch <;> revert upper upper' p <;> decide

/-- A pixel's value has the colour's bits at the places `Loc` gives them, and none at the other pixel's: a check of every
place (R57, R141). -/
theorem getLsbD_pixelValue (v : Rgb444) (upper upper' : Bool) (ch : Channel) (p : Plane) :
    (pixelValue v upper (bitPlace (upper', ch, p)).1).getLsbD (bitPlace (upper', ch, p)).2 =
      (upper' == upper && (v.get ch).getLsbD p) := by
  fin_cases p <;> cases ch <;> cases upper <;> cases upper' <;>
    simp [bitPlace, pixelValue, getElem_bitAt, Rgb444.get]

/-- One byte of the pixel's column after the three updates: the pixel's bits are the colour's, the others stay. -/
theorem read_encodePixel_column {c : Config} {k : Region} {px py : Nat} {v : Rgb444} {m : Memory}
    (hwf : Memory.wf m) (hx : px < c.width) (j : Fin 3) :
    Memory.read (runAll (encodePixel c k px py v) m) (fb c k (columnByte c (scanRow c py) j px)) =
      Memory.read m (fb c k (columnByte c (scanRow c py) j px)) &&& ~~~pixelMask (upperHalf c py) j |||
        pixelValue v (upperHalf c py) j := by
  rw [encodePixel_eq]
  refine runAll_read_upd hwf ?_ (List.mem_map_of_mem (List.mem_finRange j))
  rw [List.map_map]
  refine (List.nodup_finRange 3).map fun i i' h => Fin.ext ?_
  have hi := (columnByte_digits (row := scanRow c py) i.isLt hx).2.1
  have hi' := (columnByte_digits (row := scanRow c py) i'.isLt hx).2.1
  rw [← hi, ← hi', fb_injective c k h]

/-- The three updates touch the bytes of the pixel's column alone. -/
theorem read_encodePixel_other {c : Config} {k : Region} {px py a : Nat} {v : Rgb444} {m : Memory}
    (hwf : Memory.wf m) (ha : ∀ j : Fin 3, a ≠ fb c k (columnByte c (scanRow c py) j px)) :
    Memory.read (runAll (encodePixel c k px py v) m) a = Memory.read m a := by
  rw [encodePixel_eq]
  refine runAll_read_other hwf fun u hu he => ?_
  obtain ⟨j, _, rfl⟩ := List.mem_map.mp hu
  exact ha j he.symm

/-! ### The bits of a region, as bits of pixels (R57, R142) -/

theorem pixelBit_eq (c : Config) (m : Memory) (k : Region) (px py : Nat) (ch : Channel) (p : Plane) :
    pixelBit c m k px py ch p =
      (Memory.read m (fb c k (columnByte c (scanRow c py) (bitPlace (upperHalf c py, ch, p)).1 px))).getLsbD
        (bitPlace (upperHalf c py, ch, p)).2 := by
  rw [pixelBit, loc_eq]

/-- Every bit of a region is a bit of a pixel. -/
theorem exists_pixel_of_bit {c : Config} {o b : Nat} (ho : o < c.bufSize) (hb : b < 8) :
    ∃ px py ch p, px < c.width ∧ py < c.height ∧ loc c px py ch p = (o, b) ∧
      ∀ m k, (Memory.read m (fb c k o)).getLsbD b = pixelBit c m k px py ch p := by
  obtain ⟨px, py, ch, p, hx, hy, hloc⟩ := loc_surjective ho hb
  exact ⟨px, py, ch, p, hx, hy, hloc, fun m k => by rw [pixelBit, hloc]⟩

/-- Two memories give the same byte of a region if its pixels have the same bits. -/
theorem read_congr_of_pixelBit {c : Config} {k : Region} {m n : Memory} {a : Nat} (ha : inRegion c k a)
    (h : ∀ px py ch p, px < c.width → py < c.height → pixelBit c m k px py ch p = pixelBit c n k px py ch p) :
    Memory.read m a = Memory.read n a := by
  obtain ⟨o, ho, rfl⟩ := inRegion_iff.mp ha
  refine BitVec.eq_of_getLsbD_eq fun b hb => ?_
  obtain ⟨px, py, ch, p, hx, hy, _, hbit⟩ := exists_pixel_of_bit ho hb
  rw [hbit, hbit, h px py ch p hx hy]

/-- The pixels of one column differ in their half of the panel. -/
theorem upperHalf_ne_of_scanRow_eq {c : Config} {py qy : Nat} (hne : py ≠ qy) (hrow : scanRow c py = scanRow c qy) :
    upperHalf c py ≠ upperHalf c qy := fun hu =>
  hne (by rw [← physicalRow_scanRow c py, ← physicalRow_scanRow c qy, hu, hrow])

/-- A pixel's bit after a pixel write: the colour's for the pixel written, as before for every other (R150, R151). -/
theorem pixelBit_encodePixel {c : Config} {k k' : Region} {px py qx qy : Nat} {v : Rgb444} {m : Memory}
    (hwf : Memory.wf m) (hx : px < c.width) (hy : py < c.height) (hqx : qx < c.width) (hqy : qy < c.height)
    (ch : Channel) (p : Plane) :
    pixelBit c (runAll (encodePixel c k px py v) m) k' qx qy ch p =
      if (k', qx, qy) = (k, px, py) then (v.get ch).getLsbD p else pixelBit c m k' qx qy ch p := by
  rw [pixelBit_eq, pixelBit_eq]
  by_cases hcolumn : k' = k ∧ scanRow c qy = scanRow c py ∧ qx = px
  case pos =>
    obtain ⟨rfl, hrow, rfl⟩ := hcolumn
    rw [hrow, read_encodePixel_column hwf hx, BitVec.getLsbD_or, BitVec.getLsbD_and, BitVec.getLsbD_not,
      getLsbD_pixelMask, getLsbD_pixelValue]
    by_cases hpixel : qy = py
    · simp [hpixel]
    · simp [hpixel, beq_false_of_ne (upperHalf_ne_of_scanRow_eq hpixel hrow)]
  case neg =>
    rw [read_encodePixel_other hwf, if_neg]
    · rintro ⟨⟩
      exact hcolumn ⟨rfl, rfl, rfl⟩
    · intro j heq
      obtain ⟨hk, hrow, _, hqx⟩ := fb_columnByte_inj (scanRow_lt hqy) (scanRow_lt hy) hqx hx heq
      exact hcolumn ⟨hk, hrow, hqx⟩

theorem pixelBit_encodePixel_self {c : Config} {k : Region} {px py : Nat} {v : Rgb444} {m : Memory}
    (hwf : Memory.wf m) (hx : px < c.width) (hy : py < c.height) (ch : Channel) (p : Plane) :
    pixelBit c (runAll (encodePixel c k px py v) m) k px py ch p = (v.get ch).getLsbD p := by
  rw [pixelBit_encodePixel hwf hx hy hx hy, if_pos rfl]

/-- A pixel write leaves the other region alone. -/
theorem read_encodePixel_outside {c : Config} {k : Region} {px py a : Nat} {v : Rgb444} {m : Memory}
    (hwf : Memory.wf m) (hx : px < c.width) (hy : py < c.height) (ha : ¬inRegion c k a) :
    Memory.read (runAll (encodePixel c k px py v) m) a = Memory.read m a :=
  runAll_read_outside hwf (encodePixel_legal v hx hy) ha

/-- Settles O21: a pixel write sets the pixel's bits; every other bit of the region is another pixel's or another
channel's or plane's, and outside the region no byte changes. -/
theorem encodePixelSetsExactlyItsTwelveBits : Obligations.EncodePixelSetsExactlyItsTwelveBits := by
  refine fun c k px py v m hwf hx hy => ⟨pixelBit_encodePixel_self hwf hx hy, fun a b hother => ?_⟩
  by_cases ha : inRegion c k a
  case neg => rw [read_encodePixel_outside hwf hx hy ha]
  case pos =>
    rcases Nat.lt_or_ge b 8 with hb | hb
    case inr => rw [BitVec.getLsbD_of_ge _ _ hb, BitVec.getLsbD_of_ge _ _ hb]
    case inl =>
      obtain ⟨o, ho, rfl⟩ := inRegion_iff.mp ha
      obtain ⟨qx, qy, ch, p, hqx, hqy, hloc, hbit⟩ := exists_pixel_of_bit ho hb
      rw [hbit, hbit, pixelBit_encodePixel hwf hx hy hqx hqy, if_neg]
      rintro ⟨⟩
      exact hother ch p (by rw [hloc]; exact ⟨rfl, rfl⟩)

/-! ### Pixel writes commute (R151) -/

/-- A canonical memory is determined by the bits of the pixels and the bytes outside both regions. -/
theorem Memory.ext_of_pixelBit {c : Config} {m n : Memory} (hm : Memory.wf m) (hn : Memory.wf n)
    (hpixel : ∀ k px py ch p, px < c.width → py < c.height → pixelBit c m k px py ch p = pixelBit c n k px py ch p)
    (houtside : ∀ a, (∀ k, ¬inRegion c k a) → Memory.read m a = Memory.read n a) : m = n := by
  refine Memory.ext_of_wf hm hn fun a => ?_
  by_cases ha : ∃ k, inRegion c k a
  · obtain ⟨k, ha⟩ := ha
    exact read_congr_of_pixelBit ha (hpixel k)
  · exact houtside a (not_exists.mp ha)

/-- Settles O22: after both writes each of the two pixels has its own colour and every other bit is as before, in either
order. -/
theorem pixelWritesCommute : Obligations.PixelWritesCommute := by
  intro c k k' px py px' py' v v' m hwf hx hy hx' hy' hne
  have hwf₁ := runAll_wf hwf (encodePixel c k px py v)
  have hwf₂ := runAll_wf hwf (encodePixel c k' px' py' v')
  rw [runAll_append, runAll_append]
  refine Memory.ext_of_pixelBit (c := c) (runAll_wf hwf₁ _) (runAll_wf hwf₂ _)
    (fun kq qx qy ch p hqx hqy => ?pixel) fun a ha => ?outside
  case pixel =>
    rw [pixelBit_encodePixel hwf₁ hx' hy' hqx hqy, pixelBit_encodePixel hwf hx hy hqx hqy,
      pixelBit_encodePixel hwf₂ hx hy hqx hqy, pixelBit_encodePixel hwf hx' hy' hqx hqy]
    by_cases hfirst : (kq, qx, qy) = (k, px, py)
    · rw [if_neg (hfirst ▸ hne), if_pos hfirst, if_pos hfirst]
    · rw [if_neg hfirst, if_neg hfirst]
  case outside =>
    rw [read_encodePixel_outside hwf₁ hx' hy' (ha k'), read_encodePixel_outside hwf hx hy (ha k),
      read_encodePixel_outside hwf₂ hx hy (ha k), read_encodePixel_outside hwf hx' hy' (ha k')]

/-! ### The decoder (R142), and WRPIX (R143, R150) -/

/-- Four bits put together with weights 1, 2, 4, 8. -/
theorem getLsbD_append_ofBool (bit : Plane → Bool) (p : Plane) :
    (BitVec.ofBool (bit 3) ++ BitVec.ofBool (bit 2) ++ BitVec.ofBool (bit 1) ++ BitVec.ofBool (bit 0)).getLsbD p =
      bit p := by
  rw [BitVec.getLsbD_append, BitVec.getLsbD_append, BitVec.getLsbD_append]
  fin_cases p <;> simp

theorem getLsbD_decodeChannel (c : Config) (m : Memory) (k : Region) (px py : Nat) (ch : Channel) (p : Plane) :
    (decodeChannel c m k px py ch).getLsbD p = pixelBit c m k px py ch p :=
  getLsbD_append_ofBool (pixelBit c m k px py ch) p

/-- A colour whose bits are the pixel's is what the pixel decodes to. -/
theorem decodePixel_eq_of_pixelBit {c : Config} {m : Memory} {k : Region} {px py : Nat} {v : Rgb444}
    (h : ∀ ch p, pixelBit c m k px py ch p = (v.get ch).getLsbD p.val) : decodePixel c m k px py = v := by
  have hch : ∀ ch, decodeChannel c m k px py ch = v.get ch := fun ch =>
    BitVec.eq_of_getLsbD_eq fun p hp => by
      rw [← h ch ⟨p, hp⟩, ← getLsbD_decodeChannel]
  rw [decodePixel, hch, hch, hch]
  rfl

theorem decodePixel_get (c : Config) (m : Memory) (k : Region) (px py : Nat) (ch : Channel) :
    (decodePixel c m k px py).get ch = decodeChannel c m k px py ch := by
  cases ch <;> rfl

theorem decodePixel_congr {c : Config} {m n : Memory} {k : Region} {px py : Nat}
    (h : ∀ ch p, pixelBit c m k px py ch p = pixelBit c n k px py ch p) :
    decodePixel c m k px py = decodePixel c n k px py :=
  decodePixel_eq_of_pixelBit fun ch p => by rw [h, decodePixel_get, getLsbD_decodeChannel]

/-- A WRPIX of a visible pixel with no tick inside it runs the three updates of the encoder. -/
theorem exec_wrpix_of_uninterrupted {s : State} {rot : Rotation} {x y : Int} {color : Colour16} {px py : Nat}
    (herr : s.errAlloc = false) (hx : xform s.cfg rot x y = some (px, py)) (hfree : Uninterrupted s 3) :
    exec (.wrpix rot x y color) s =
      .next (s.withRam (runAll (encodePixel s.cfg s.back px py (quant565 color)) s.ram)) := by
  have hcount : microCount (encodePixel s.cfg s.back px py (quant565 color)) = 3 := by
    rw [microCount_of_single (encodePixel_single _ _ _ _ _), encodePixel_eq, List.length_map, List.length_finRange]
  rw [exec, execWrpix, needsRam_of_ok herr, hx]
  exact congrArg _ (runHost_of_uninterrupted (hcount ▸ hfree))

/-- Settles O24: the RAM is that of the encoder's three updates. -/
theorem wrpixWritesItsPixelAndNothingElse : Obligations.WrpixWritesItsPixelAndNothingElse := by
  intro s rot x y color px py herr hwf hxform hfree
  obtain ⟨hx, hy⟩ := xform_physical hxform
  refine ⟨_, exec_wrpix_of_uninterrupted herr hxform hfree, rfl,
    decodePixel_eq_of_pixelBit (pixelBit_encodePixel_self hwf hx hy),
    fun k qx qy hqx hqy hne => decodePixel_congr fun ch p => ?pixel, fun a h₀ h₁ h₂ => ?bytes⟩
  case pixel => exact (pixelBit_encodePixel hwf hx hy hqx hqy ch p).trans (if_neg hne)
  case bytes =>
    refine read_encodePixel_other hwf fun j => ?_
    rw [columnByte_eq_baseOffset]
    fin_cases j
    · simpa using h₀
    · simpa using h₁
    · exact h₂

/-! ### FILL (R144) and the fast-fill equivalence (R152) -/

theorem bulkFill_legal (c : Config) (k : Region) (v : Byte) : ∀ u ∈ bulkFill c k v, u.legal c k := by
  intro u hu
  obtain ⟨o, ho, rfl⟩ := List.mem_map.mp hu
  exact inRegion_fb (List.mem_range.mp ho)

theorem read_bulkFill {c : Config} {k : Region} {v : Byte} {m : Memory} (hwf : Memory.wf m) {o : Nat}
    (ho : o < c.bufSize) : Memory.read (runAll (bulkFill c k v) m) (fb c k o) = v := by
  refine runAll_read_write hwf ?_ (List.mem_map_of_mem (List.mem_range.mpr ho))
  rw [bulkFill, List.map_map]
  exact List.nodup_range.map (fb_injective c k)

/-- The writes of a colour to a list of pixels, each named by its row and its column. -/
def encodePixels (c : Config) (k : Region) (v : Rgb444) (pixels : List (Nat × Nat)) : List Micro :=
  pixels.flatMap fun q => encodePixel c k q.2 q.1 v

theorem encodePixels_cons (c : Config) (k : Region) (v : Rgb444) (q : Nat × Nat) (pixels : List (Nat × Nat)) :
    encodePixels c k v (q :: pixels) = encodePixel c k q.2 q.1 v ++ encodePixels c k v pixels := List.flatMap_cons

theorem pixelFill_eq (c : Config) (k : Region) (v : Rgb444) :
    pixelFill c k v = encodePixels c k v (List.range c.height ×ˢ List.range c.width) := by
  simp only [pixelFill, encodePixels, SProd.sprod, List.product, List.flatMap_assoc, List.flatMap_map]

theorem pixelFill_legal (c : Config) (k : Region) (v : Rgb444) : ∀ u ∈ pixelFill c k v, u.legal c k := by
  intro u hu
  simp only [pixelFill, List.mem_flatMap, List.mem_range] at hu
  obtain ⟨py, hy, px, hx, hu⟩ := hu
  exact encodePixel_legal v hx hy u hu

/-- After the writes of one colour each pixel of the list has it, and every other pixel of the region is as before. -/
theorem pixelBit_encodePixels {c : Config} {k : Region} {v : Rgb444} {pixels : List (Nat × Nat)} {m : Memory}
    (hwf : Memory.wf m) (hpixels : ∀ q ∈ pixels, q.2 < c.width ∧ q.1 < c.height) {qx qy : Nat} (hqx : qx < c.width)
    (hqy : qy < c.height) (ch : Channel) (p : Plane) :
    pixelBit c (runAll (encodePixels c k v pixels) m) k qx qy ch p =
      if (qy, qx) ∈ pixels then (v.get ch).getLsbD p else pixelBit c m k qx qy ch p := by
  induction pixels generalizing m with
  | nil => rfl
  | cons q pixels ih =>
    obtain ⟨hx, hy⟩ := hpixels q (by simp)
    rw [encodePixels_cons, runAll_append, ih (runAll_wf hwf _) fun q hq => hpixels q (List.mem_cons_of_mem _ hq),
      pixelBit_encodePixel hwf hx hy hqx hqy]
    have hfirst : (k, qx, qy) = (k, q.2, q.1) ↔ (qy, qx) = q := by simp [Prod.ext_iff, and_comm]
    simp only [List.mem_cons, hfirst, or_comm (a := (qy, qx) = q), ite_or]

/-- The two pixels of a column, filled with one colour, make up its byte of each stride. -/
theorem fillByte_eq (v : Rgb444) (j : Fin 3) : fillByte v j = pixelValue v true j ||| pixelValue v false j := by
  fin_cases j <;> simp [fillByte, pixelValue] <;> ac_rfl

theorem getLsbD_fillByte (v : Rgb444) (upper : Bool) (ch : Channel) (p : Plane) :
    (fillByte v (bitPlace (upper, ch, p)).1).getLsbD (bitPlace (upper, ch, p)).2 = (v.get ch).getLsbD p := by
  rw [fillByte_eq, BitVec.getLsbD_or, getLsbD_pixelValue, getLsbD_pixelValue]
  cases upper <;> simp

theorem read_pixelFill {c : Config} {k : Region} {v : Rgb444} {m : Memory} (hwf : Memory.wf m) {o : Nat}
    (ho : o < c.bufSize) :
    Memory.read (runAll (pixelFill c k v) m) (fb c k o) = fillByte v (o / c.width % 3) := by
  refine BitVec.eq_of_getLsbD_eq fun b hb => ?_
  obtain ⟨px, py, ch, p, hx, hy, hloc, hbit⟩ := exists_pixel_of_bit ho hb
  have hfilled : (py, px) ∈ List.range c.height ×ˢ List.range c.width := by simp [hx, hy]
  rw [hbit, pixelFill_eq, pixelBit_encodePixels hwf (by simp +contextual) hx hy, if_pos hfilled]
  rw [loc_eq, Prod.mk.injEq] at hloc
  obtain ⟨rfl, rfl⟩ := hloc
  rw [(columnByte_digits (Fin.isLt _) hx).2.1, getLsbD_fillByte]

/-- Three strides are all there are. -/
theorem fillByte_const {v : Rgb444} {byte : Byte} (h : ∀ j : Fin 3, fillByte v j = byte) (j : Nat) :
    fillByte v j = byte :=
  match j with
  | 0 => h 0
  | 1 => h 1
  | _ + 2 => h 2

theorem fillByte_black (j : Nat) : fillByte (quant565 0x0000#16) j = 0x00#8 := fillByte_const (by decide) j

theorem fillByte_white (j : Nat) : fillByte (quant565 0xFFFF#16) j = 0xFF#8 := fillByte_const (by decide) j

/-- A fill gives each byte of the region R144's value for its stride, be it the bulk fill or the per-pixel one. -/
theorem read_fillMicros {c : Config} {k : Region} {color : Colour16} {m : Memory} (hwf : Memory.wf m) {o : Nat}
    (ho : o < c.bufSize) :
    Memory.read (runAll (fillMicros c k color) m) (fb c k o) = fillByte (quant565 color) (o / c.width % 3) := by
  unfold fillMicros
  split
  · next hblack => rw [hblack, fillByte_black, read_bulkFill hwf ho]
  · split
    · next hwhite => rw [hwhite, fillByte_white, read_bulkFill hwf ho]
    · exact read_pixelFill hwf ho

/-- Settles O25: a fill with no tick inside it is its whole list of byte accesses. -/
theorem fillSetsEveryByteOfTheBackRegion : Obligations.FillSetsEveryByteOfTheBackRegion := by
  intro s color herr hwf hfree
  have hexec : exec (.fill color) s = .next (s.withRam (runAll (fillMicros s.cfg s.back color) s.ram)) := by
    rw [exec, execFill, needsRam_of_ok herr, runHost_of_uninterrupted hfree]
  refine ⟨_, hexec, rfl, fun o ho => read_fillMicros hwf ho, fun hblack o ho => ?black, fun hwhite o ho => ?white,
    fun a ha => runAll_read_outside hwf (fillMicros_legal _ _ _) ha⟩
  case black => exact (read_fillMicros hwf ho).trans (hblack ▸ fillByte_black _)
  case white => exact (read_fillMicros hwf ho).trans (hwhite ▸ fillByte_white _)

/-- Where a colour has the same byte in every stride, filling with that byte is filling the pixels. -/
theorem runAll_bulkFill_eq_pixelFill {c : Config} {k : Region} {v : Rgb444} {byte : Byte} {m : Memory}
    (hwf : Memory.wf m) (hbyte : ∀ j, fillByte v j = byte) :
    runAll (bulkFill c k byte) m = runAll (pixelFill c k v) m := by
  refine Memory.ext_of_wf (runAll_wf hwf _) (runAll_wf hwf _) fun a => ?_
  by_cases ha : inRegion c k a
  · obtain ⟨o, ho, rfl⟩ := inRegion_iff.mp ha
    rw [read_bulkFill hwf ho, read_pixelFill hwf ho, hbyte]
  · rw [runAll_read_outside hwf (bulkFill_legal c k byte) ha, runAll_read_outside hwf (pixelFill_legal c k v) ha]

/-- Settles O26: black is 0x00 and white is 0xFF in every stride. -/
theorem fastFillEqualsPixelFill : Obligations.FastFillEqualsPixelFill := fun _ _ _ hwf =>
  ⟨runAll_bulkFill_eq_pixelFill hwf fillByte_black, runAll_bulkFill_eq_pixelFill hwf fillByte_white⟩

/-! ### The colour lines (R153) -/

/-- The colour line of a channel of the upper or the lower pixel (R87, decision D7). -/
def colourLine : Bool → Channel → Nat
  | true, .R => 0
  | true, .G => 1
  | true, .B => 2
  | false, .R => 3
  | false, .G => 4
  | false, .B => 5

/-- Plane 0 drives the lowest two bits of the three bytes of a column, the last stride first. -/
theorem getLsbD_colMask_zero {c : Config} (m : Memory) (k : Region) (row i : Nat) {n : Nat} (hn : n < 6) :
    (colMask c m k row 0 i).getLsbD n =
      (Memory.read m (fb c k (columnByte c row (2 - n / 2) i))).getLsbD (n % 2) := by
  have happend : ∀ x y z : BitVec 2, (x ++ y ++ z).getLsbD n =
      if n < 2 then z.getLsbD n else if n - 2 < 2 then y.getLsbD (n - 2) else x.getLsbD (n - 2 - 2) := fun x y z => by
    rw [BitVec.getLsbD_append, BitVec.getLsbD_append]
  refine (happend _ _ _).trans ?_
  interval_cases n <;> simp [columnByte_eq]

/-- A higher plane drives the other six bits of its stride's byte. -/
theorem getLsbD_colMask_succ {c : Config} (m : Memory) (k : Region) (row i : Nat) {p n : Nat} (hp : p + 1 < 4)
    (hn : n < 6) : (colMask c m k row ⟨p + 1, hp⟩ i).getLsbD n =
      (Memory.read m (fb c k (columnByte c row p i))).getLsbD (2 + n) := by
  simp only [colMask, if_pos (Nat.le_add_left 1 p), Nat.add_sub_cancel, BitVec.getLsbD_extractLsb', hn, decide_true,
    Bool.true_and, columnByte_eq]

theorem getLsbD_colMask {c : Config} {row : Nat} (hrow : row < c.nrows) (m : Memory) (k : Region) (i : Nat)
    (p : Plane) (upper : Bool) (ch : Channel) : (colMask c m k row p i).getLsbD (colourLine upper ch) =
      pixelBit c m k i (physicalRow c upper row) ch p := by
  have hline : colourLine upper ch < 6 := by cases upper <;> cases ch <;> decide
  rw [pixelBit_eq, upperHalf_physicalRow hrow, scanRow_physicalRow hrow]
  obtain ⟨p, hp⟩ := p
  cases p with
  | zero =>
    rw [Fin.zero_eta, getLsbD_colMask_zero m k row i hline]
    cases upper <;> cases ch <;> rfl
  | succ p =>
    rw [getLsbD_colMask_succ m k row i hp hline]
    cases upper <;> cases ch <;> rfl

/-- Settles O51: each line is the plane's bit of one channel of one of the two pixels. -/
theorem colourLinesAreThePlaneBitsOfTheTwoPixels : Obligations.ColourLinesAreThePlaneBitsOfTheTwoPixels := by
  intro c m k row i p hrow _
  have hline : ∀ upper ch, (colMask c m k row p i).getLsbD (colourLine upper ch) =
      (decodeChannel c m k i (physicalRow c upper row) ch).getLsbD p := fun upper ch => by
    rw [getLsbD_colMask hrow, getLsbD_decodeChannel]
  exact ⟨hline true .R, hline true .G, hline true .B, hline false .R, hline false .G, hline false .B⟩

/-! ### Raw access (R147 to R149) -/

/-- A raw access beyond the buffer faults (decision D16). -/
theorem rawAccess_of_outside {s : State} {off : Nat} {o : Outcome} {r : Fault} (herr : s.errAlloc = false)
    (hoff : s.cfg.bufSize ≤ off) : needsRam s (if offsetInside s.cfg off then o else .fault r) = .fault r := by
  have houtside : offsetInside s.cfg off = false := decide_eq_false (Nat.not_lt.mpr hoff)
  rw [needsRam_of_ok herr, houtside]
  rfl

/-- Settles O28: inside the buffer LDB answers a next state, and beyond it any raw access faults. -/
theorem ldbRespondsAByteOfTheBackRegion : Obligations.LdbRespondsAByteOfTheBackRegion :=
  fun _ _ herr => ⟨fun hoff => exec_ldb_eq_next_iff.mpr ⟨herr, hoff, rfl⟩, rawAccess_of_outside herr⟩

/-- Settles O29: STB is one write, and beyond the buffer any raw access faults. -/
theorem stbWritesAByteOfTheBackRegion : Obligations.StbWritesAByteOfTheBackRegion := by
  refine fun s off data herr hwf => ⟨fun hoff => ?_, rawAccess_of_outside herr⟩
  exact ⟨_, exec_stb_eq_next_iff.mpr ⟨herr, hoff, rfl⟩, rfl, Memory.read_write_same hwf _ _,
    fun a ha => Memory.read_write_other hwf _ ha⟩

/-- What the environment sends for a well-formed command is a word that decodes to it. -/
theorem inputOf_decodes {i : Instr} {op : Opcode} (hop : i.opcode = some op) (hwf : i.wf = true) :
    ∃ w, inputOf i = .command w ∧ decodeCommand w = .ok i := by
  obtain ⟨w, henc, _⟩ := encode_of_opcode hop
  have hdecode := decodeInvertsEncode i hwf
  rw [henc] at hdecode
  exact ⟨w, by rw [inputOf, henc], decodeCommand_of_decode hdecode⟩

/-- An idle host takes an LDB off the inputs and responds its byte. -/
theorem step_of_ldb {s : State} {off : Nat} {rest : List Input} (hlegal : s.cfg.Legal) (herr : s.errAlloc = false)
    (hidle : s.host = .idle) (hin : s.inputs = inputOf (.ldb off) :: rest) (hoff : off < s.cfg.bufSize) :
    step s = .next ((s.withInputs rest).respond (0x00#8 ++ s.regionByte s.back off)) := by
  have hfits : offsetFits off = true := decide_eq_true (Nat.lt_of_lt_of_le hoff hlegal.bufSize_le)
  obtain ⟨w, hw, hdecode⟩ := inputOf_decodes (i := .ldb off) rfl hfits
  rw [step_of_command hidle (hw ▸ hin) hdecode]
  exact exec_ldb_eq_next_iff.mpr ⟨herr, hoff, rfl⟩

/-- A row of LDBs responds its bytes in order. -/
theorem run_ldbs {s : State} {offs : List Nat} (hlegal : s.cfg.Legal) (herr : s.errAlloc = false)
    (hidle : s.host = .idle) (hin : s.inputs = offs.map fun o => inputOf (.ldb o))
    (hoffs : ∀ o ∈ offs, o < s.cfg.bufSize) :
    run offs.length s = .next { s with
      inputs := [], responses := s.responses ++ offs.map fun o => 0x00#8 ++ s.regionByte s.back o } := by
  induction offs generalizing s with
  | nil =>
    rw [List.map_nil] at hin
    simp only [List.map_nil, List.append_nil, ← hin]
    rfl
  | cons o offs ih =>
    have hrest := ih
      (s := (s.withInputs (offs.map fun o => inputOf (.ldb o))).respond (0x00#8 ++ s.regionByte s.back o))
      hlegal herr hidle rfl fun o' ho' => hoffs o' (by simp [ho'])
    rw [List.length_cons, run_succ _ (step_of_ldb hlegal herr hidle hin (hoffs o (by simp))), hrest]
    simp only [State.respond_responses, State.withInputs_responses, List.append_assoc, List.map_cons,
      List.singleton_append]
    rfl

/-- Settles O31: DUMP is the LDBs of every offset in ascending order. -/
theorem dumpRespondsTheBackRegion : Obligations.DumpRespondsTheBackRegion := by
  intro s hlegal herr hidle hin
  rw [dump, List.map_map] at hin
  simpa using run_ldbs hlegal herr hidle hin fun o ho => List.mem_range.mp ho

/-! ### SWAP and its copy-forward (R145, R146) -/

/-- Settles O34: on a double-buffered instance the request is all that `exec` of SWAP does. -/
theorem swapSetsTheFlagAndWaits : Obligations.SwapSetsTheFlagAndWaits := by
  intro s copy herr hdbuf
  rw [exec, execSwap, needsRam_of_ok herr, if_pos hdbuf]
  rfl

theorem microCount_copyForward (c : Config) (f : Region) : microCount (copyForward c f) = 2 * c.bufSize := by
  rw [copyForward, microCount_copies, List.length_range]

theorem one_sub_ne (f : Region) : 1 - f ≠ f := by
  revert f
  decide

/-- The copy-forward gives every byte of the region it writes the value of the region it reads. -/
theorem read_copyForward {c : Config} {f : Region} {m : Memory} (hwf : Memory.wf m) {o : Nat} (ho : o < c.bufSize) :
    Memory.read (runAll (copyForward c f) m) (fb c (1 - f) o) = Memory.read m (fb c f o) := by
  refine runAll_read_copy hwf ?nodup (List.mem_map_of_mem (List.mem_range.mpr ho)) fun w hw he => ?source
  case nodup =>
    rw [copyForward, List.map_map]
    exact List.nodup_range.map (fb_injective c (1 - f))
  case source =>
    have htarget := Micro.legal_target (copyForward_legal c f w hw)
    exact one_sub_ne f (inRegion_disjoint (he ▸ htarget) (inRegion_fb ho))

/-- The first `n` micro-operations of the copy-forward: `n / 2` copies, and for an odd `n` the next byte's read. -/
theorem runSome_copyForward {c : Config} (f : Region) (m : Memory) {n : Nat} (hn : n < 2 * c.bufSize) :
    runSome n (copyForward c f) m =
      (if n % 2 = 0 then (copyForward c f).drop (n / 2)
       else .write (fb c (1 - f) (n / 2))
          (Memory.read (runAll ((copyForward c f).take (n / 2)) m) (fb c f (n / 2))) ::
          (copyForward c f).drop (n / 2 + 1),
       runAll ((copyForward c f).take (n / 2)) m) := by
  rw [copyForward, runSome_copies _ _ _ _ _ (by rwa [List.length_range]), List.getElem_range, List.map_take,
    List.map_drop, List.map_drop]

/-- The step that ends a SWAP's wait (R145): no tick is due and the flag is cleared. -/
theorem step_of_waitOver {s : State} {copy : Bool} (hwait : s.host = .waiting copy) (hclear : s.swapPending = false)
    (hin : ∀ rest, s.inputs ≠ .tick 0 :: rest) : step s = .next (resumeSwap copy s) :=
  step_of_swapCleared hwait hclear fun hhead => by
    obtain ⟨rest, hrest⟩ := List.head?_eq_some_iff.mp hhead
    exact hin rest hrest

theorem resumeSwap_copy (s : State) :
    resumeSwap true s = runHost (copyForward s.cfg s.front) (s.withHost .idle) := rfl

/-- Settles O35: without the copy the host is idle at once, and with it the host runs the copy-forward. -/
theorem swapEndsWithCopyForward : Obligations.SwapEndsWithCopyForward := by
  intro s hdbuf hclear hwf hin
  refine ⟨fun hwait => step_of_waitOver hwait hclear hin, fun hwait hfree => ?_⟩
  have hstep : step s = .next ((s.withHost .idle).withRam (runAll (copyForward s.cfg s.front) s.ram)) := by
    rw [step_of_waitOver hwait hclear hin, resumeSwap_copy, runHost_of_uninterrupted
      (by rw [microCount_copyForward]; exact hfree)]
    rfl
  have hback : s.back = 1 - s.front := State.back_of_dbuf hdbuf
  have houtside : ∀ a, ¬inRegion s.cfg s.back a →
      Memory.read (runAll (copyForward s.cfg s.front) s.ram) a = Memory.read s.ram a := fun a ha =>
    runAll_read_outside hwf (copyForward_legal s.cfg s.front) (hback ▸ ha)
  refine ⟨_, hstep, rfl, fun o ho => ⟨?copied, ?source⟩, houtside⟩
  case copied => exact hback ▸ read_copyForward hwf ho
  case source => exact houtside _ (not_inRegion_back_of_front hdbuf (inRegion_fb ho))

/-- Settles O38: the end of the wait is one turn of the host at the copy-forward, which `runSome_copyForward` describes
wherever a tick cuts it. -/
theorem preemptedCopyForwardEndsInTheSameRam : Obligations.PreemptedCopyForwardEndsInTheSameRam := by
  intro s t hdbuf hclear hwait hin hstep ms
  obtain rfl : runHost ms (s.withHost .idle) = t := by
    simpa [step_of_waitOver hwait hclear hin, resumeSwap_copy] using hstep
  have hcount : microCount ms = 2 * s.cfg.bufSize := microCount_copyForward _ _
  have hback : s.back = 1 - s.front := State.back_of_dbuf hdbuf
  refine ⟨runHost_frame ms (s.withHost .idle), runHost_settledRam ms (by simp), fun hfree => ?uncut,
    fun n rest htick hn => ?cut, fun hwf a ha => ?outside⟩
  case uncut =>
    rw [runHost_of_uninterrupted (by rw [hcount]; exact hfree)]
    exact ⟨rfl, rfl, rfl⟩
  case cut =>
    rw [runHost_of_tick (s := s.withHost .idle) htick (hcount ▸ hn), State.withHost_ram, runSome_copyForward _ _ hn,
      hback]
    exact ⟨rfl, rfl, rfl⟩
  case outside =>
    exact runHost_readByte_outside (s := s.withHost .idle) hwf (copyForward_legal s.cfg s.front) (hback ▸ ha)

end Sys2Proof.Machine

/-! The family of spec/42_scheduler.md: BEGIN (R196), the one TICK (R180 to R191), runs of ticks (R194, R199), lit time
(R195), what the panel shows (R192, R193), and where `front` changes (R198). -/

namespace Sys2Proof.Machine

/-! ### BEGIN, and a tick before it (R180, R196) -/

theorem exec_begin_of_failed {s : State} (herr : s.errAlloc = true) : exec .beginCmd s = .next s := by
  simp [exec, execBegin, herr]

/-- Settles O40: the three branches of BEGIN. -/
theorem beginArmsTheInterrupt : Obligations.BeginArmsTheInterrupt := fun _ =>
  ⟨exec_begin_of_idle, exec_begin_of_running, exec_begin_of_failed⟩

/-- Settles O44. -/
theorem tickBeforeBeginDoesNothing : Obligations.TickBeforeBeginDoesNothing := fun _ => exec_tick_of_not_running

/-! ### The advance in the spec's words (R183, R184) -/

theorem planeWraps_iff {p : Plane} : planeWraps p = true ↔ p = 3 := by
  revert p
  decide

theorem nextPlane_val (p : Plane) : (nextPlane p).val = (p.val + 1) % 4 := Fin.val_add p 1

theorem nextPlane_eq_zero_iff {p : Plane} : nextPlane p = 0 ↔ p = 3 := by
  revert p
  decide

theorem nextPlane_eq_one_iff {p : Plane} : nextPlane p = 1 ↔ p = 0 := by
  revert p
  decide

theorem frameBoundary_iff {c : Config} {row : Nat} {p : Plane} :
    frameBoundary c row p = true ↔ p = 3 ∧ c.nrows ≤ row + 1 := by
  rw [frameBoundary, Bool.and_eq_true, planeWraps_iff, decide_eq_true_iff]

theorem nextRow_eq (c : Config) (row : Nat) (p : Plane) :
    nextRow c row p = if p = 3 then (if c.nrows ≤ row + 1 then 0 else row + 1) else row := by
  simp only [nextRow, planeWraps_iff]

theorem nextRow_of_ne_three {c : Config} {row : Nat} {p : Plane} (hp : p ≠ 3) : nextRow c row p = row := by
  rw [nextRow_eq, if_neg hp]

/-- The advance ends at (0, 0) from the frame boundary and from no other position. -/
theorem advance_to_origin_iff {c : Config} {row : Nat} {p : Plane} :
    nextRow c row p = 0 ∧ nextPlane p = 0 ↔ p = 3 ∧ c.nrows ≤ row + 1 := by
  rw [nextPlane_eq_zero_iff, nextRow_eq]
  constructor
  · rintro ⟨hrow, rfl⟩
    rw [if_pos rfl] at hrow
    exact ⟨rfl, by by_contra hlast; simp [hlast] at hrow⟩
  · rintro ⟨rfl, hlast⟩
    simp [hlast]

theorem interval_eq (c : Config) (p : Plane) : interval c p = c.baseDuration * 2 ^ p.val := Nat.shiftLeft_eq _ _

/-! ### The swap of a TICK (R185) -/

/-- The TICK's swap takes place: it is at the frame boundary, and a swap is pending. -/
def State.SwapsNow (s : State) : Prop := (s.plane = 3 ∧ s.cfg.nrows ≤ s.row + 1) ∧ s.swapPending = true

theorem tickBody_of_swap {s : State} (h : s.SwapsNow) :
    (tickBody s).front = 1 - s.front ∧ (tickBody s).swapPending = false := by
  obtain ⟨hboundary, hpend⟩ := h
  simp [frameBoundary_iff.mpr hboundary, hpend]

theorem tickBody_of_noSwap {s : State} (h : ¬s.SwapsNow) :
    (tickBody s).front = s.front ∧ (tickBody s).swapPending = s.swapPending := by
  rw [State.SwapsNow, ← frameBoundary_iff, not_and_or, Bool.not_eq_true, Bool.not_eq_true] at h
  rcases h with h | h <;> simp [h]

/-- Settles O46: position, swap and colours of `tickBody`; a single-buffered instance never has a swap pending. -/
theorem swapHappensOnlyAtTheFrameBoundary : Obligations.SwapHappensOnlyAtTheFrameBoundary := by
  intro s t hrun htick
  obtain rfl : tickBody s = t := by simpa [exec_tick_of_running hrun] using htick
  have horigin : s.plane = 3 ∧ s.cfg.nrows ≤ s.row + 1 ↔ (tickBody s).row = 0 ∧ (tickBody s).plane = 0 := by
    rw [tickBody_row, tickBody_plane, advance_to_origin_iff]
  have hswap : s.plane = 3 ∧ s.cfg.nrows ≤ s.row + 1 → s.swapPending = true →
      (tickBody s).front = 1 - s.front ∧ (tickBody s).swapPending = false :=
    fun hboundary hpend => tickBody_of_swap ⟨hboundary, hpend⟩
  refine ⟨horigin, fun hboundary hpend => ?swaps, fun hnot => ?keeps, colours_tickBody s, fun hone hplane => ?oneRow,
    fun hinv hdbuf => ?single⟩
  case swaps =>
    obtain ⟨hrow, hplane⟩ := horigin.mp hboundary
    exact ⟨hrow, hplane, hswap hboundary hpend⟩
  case keeps => exact tickBody_of_noSwap fun ⟨hboundary, hpend⟩ => by simp [hboundary, hpend] at hnot
  case oneRow =>
    have hboundary : s.plane = 3 ∧ s.cfg.nrows ≤ s.row + 1 := ⟨hplane, by omega⟩
    obtain ⟨hrow, hplane⟩ := horigin.mp hboundary
    exact ⟨hrow, hplane, hswap hboundary⟩
  case single =>
    have hpend := hinv.pending_single hdbuf
    obtain ⟨hfront, hpend'⟩ := tickBody_of_noSwap (s := s) fun ⟨_, hset⟩ => by simp [hpend] at hset
    exact ⟨hpend, hpend'.trans hpend, hfront.trans (hinv.front_single hdbuf)⟩

/-! ### The trace of a TICK (R188, R191) -/

/-- With at least one column the colour lines end at the last column of the new slice. -/
theorem tickBody_rgb {s : State} (h : 1 ≤ s.cfg.width) : (tickBody s).rgb =
    colMask s.cfg s.ram (tickBody s).front (tickBody s).row (tickBody s).plane (s.cfg.width - 1) := by
  have hcfg : (beforeShiftOut s).cfg = s.cfg := by rw [← shiftOut_cfg, ← tickBody_eq_shiftOut, tickBody_cfg]
  have hram : (beforeShiftOut s).ram = s.ram := by rw [← shiftOut_ram, ← tickBody_eq_shiftOut, tickBody_ram]
  rw [tickBody_eq_shiftOut, shiftOut_rgb (hcfg.symm ▸ h), shiftOut_front, shiftOut_row, shiftOut_plane, hcfg, hram]

/-- Settles O45: the fields of `tickBody`, with the advance, the interval and the swap in the spec's words. -/
theorem tickRunsThePerTickProtocol : Obligations.TickRunsThePerTickProtocol := by
  intro s hrun hwidth
  have hevents := tickBody_events s
  rw [interval_eq] at hevents
  exact ⟨tickBody s, exec_tick_of_running hrun, by rw [tickBody_plane, nextPlane_val], by rw [tickBody_row, nextRow_eq],
    ⟨tickBody_of_swap, tickBody_of_noSwap⟩, tickBody_oe s, tickBody_lat s,
    by rw [tickBody_addr, tickBody_plane, tickBody_row], tickBody_rgb hwidth, hevents, tickBody_cfg s,
    tickBody_running s, tickBody_errAlloc s, tickBody_ram s, tickBody_host s, tickBody_inputs s, tickBody_responses s⟩

/-- Settles O47: `tickEvents` split at its TIMER event. -/
theorem tickUnblanksThenDropsTheLatch : Obligations.TickUnblanksThenDropsTheLatch := by
  intro s t hrun htick
  obtain rfl : tickBody s = t := by simpa [exec_tick_of_running hrun] using htick
  refine ⟨tickBody_oe s, tickBody_lat s, _, _, _, newEvents_of_append (tickBody_events s), ?before, ?after⟩
  case before =>
    intro e he
    rcases List.mem_append.mp he with hfixed | haddr
    · simp only [List.mem_cons, List.not_mem_nil, or_false] at hfixed
      rcases hfixed with rfl | rfl | rfl <;> simp
    · split at haddr
      · obtain rfl := List.mem_singleton.mp haddr
        simp
      · cases haddr
  case after =>
    intro e he
    obtain ⟨i, _, hcolumn⟩ := List.mem_flatMap.mp he
    rcases List.mem_pair.mp hcolumn with rfl | rfl <;> simp

/-! ### Where `front` changes (R198) -/

theorem decodeCommand_ne_tick (w : CommandWord) : decodeCommand w ≠ .ok .tick := fun hdec => by
  obtain ⟨op, _, htick⟩ := decodeCommand_eq_ok_iff.mp hdec
  have hop := assemble_opcode w op
  rw [htick] at hop
  cases hop

/-- A tick event changes `front` only on a running instance, when its swap takes place. -/
theorem takeTick_changes_front {s : State} (h : (takeTick s).front ≠ s.front) :
    s.running = true ∧ s.SwapsNow := by
  cases hrun : s.running with
  | false => exact absurd (by rw [takeTick_of_not_running hrun]) h
  | true =>
    refine ⟨rfl, not_not.mp fun hno => h ?_⟩
    obtain ⟨hsame, _⟩ := tickBody_of_noSwap hno
    rw [takeTick_of_running hrun, hsame]

/-- Settles O52: of the three kinds of step only a tick event can change `front`. -/
theorem frontChangesOnlyAtRowZero : Obligations.FrontChangesOnlyAtRowZero := by
  intro s t hstep hfront
  rcases step_cases hstep with ⟨hdue, rfl⟩ | ⟨_, _, w, rest, i, _, hdec, hexec⟩ | ⟨_, hbusy, rfl⟩
  · obtain ⟨hrun, hswap⟩ := takeTick_changes_front (s := s.withInputs (afterTick s.inputs)) hfront
    obtain ⟨hboundary, hpend⟩ := hswap
    obtain ⟨hrow, hplane⟩ := advance_to_origin_iff.mpr hboundary
    obtain ⟨_, hcleared⟩ := tickBody_of_swap ⟨hboundary, hpend⟩
    rw [takeTick_of_running hrun]
    exact ⟨(tickBody_row _).trans hrow, (tickBody_plane _).trans hplane, hrun, hpend, hcleared, hdue⟩
  · have hi : i ≠ .tick := fun hi => decodeCommand_ne_tick w (hi ▸ hdec)
    exact absurd (exec_sameRefresh hi hexec).front hfront
  · exact absurd (resumeHost_sameRefresh hbusy).front hfront

/-! ### Runs of ticks (R194, R199) -/

theorem ticks_add (m n : Nat) (s : State) : ticks (m + n) s = ticks n (ticks m s) := by
  induction m generalizing s with
  | zero => rw [Nat.zero_add, ticks]
  | succ m ih => rw [Nat.succ_add, ticks, ticks, ih]

theorem ticks_succ (n : Nat) (s : State) : ticks (n + 1) s = takeTick (ticks n s) := ticks_add n 1 s

@[simp] theorem ticks_cfg (n : Nat) (s : State) : (ticks n s).cfg = s.cfg := by
  induction n with
  | zero => rfl
  | succ n ih => rw [ticks_succ, takeTick_cfg, ih]

@[simp] theorem ticks_running (n : Nat) (s : State) : (ticks n s).running = s.running := by
  induction n with
  | zero => rfl
  | succ n ih => rw [ticks_succ, takeTick_running, ih]

@[simp] theorem ticks_ram (n : Nat) (s : State) : (ticks n s).ram = s.ram := by
  induction n with
  | zero => rfl
  | succ n ih => rw [ticks_succ, takeTick_ram, ih]

/-- With empty ports an idle host's step is a TICK (notes/assumptions/6.md). -/
theorem step_of_quiet {s : State} (hidle : s.host = .idle) (hin : s.inputs = []) : step s = .next (takeTick s) :=
  step_of_unqueuedTick (tickDue_of_idle hidle (by simp [hin])) (by simp [hin])

theorem run_of_quiet {s : State} (hidle : s.host = .idle) (hin : s.inputs = []) (n : Nat) :
    run n s = .next (ticks n s) := by
  induction n generalizing s with
  | zero => rfl
  | succ n ih =>
    rw [run_succ n (step_of_quiet hidle hin), ticks]
    exact ih (by simpa using hidle) (by simpa using hin)

/-- Settles O48: each step at empty ports is the next tick, and ticks keep `running`. -/
theorem schedulerHasNoTerminalState : Obligations.SchedulerHasNoTerminalState := fun s hrun =>
  ⟨⟨_, exec_tick_of_running hrun⟩, fun hidle hin n => ⟨run_of_quiet hidle hin n, (ticks_running n s).trans hrun⟩⟩

/-! ### The position in the frame (R184, R194) -/

theorem takeTick_plane {s : State} (hrun : s.running = true) : (takeTick s).plane = nextPlane s.plane := by
  rw [takeTick_of_running hrun, tickBody_plane]

theorem takeTick_row_of_ne_zero {s : State} (hrun : s.running = true) (h : (takeTick s).plane ≠ 0) :
    (takeTick s).row = s.row := by
  rw [takeTick_plane hrun, ne_eq, nextPlane_eq_zero_iff] at h
  rw [takeTick_of_running hrun, tickBody_row, nextRow_of_ne_three h]

/-- The position as one number: the plane is its last digit to base 4. -/
def State.position (s : State) : Nat := 4 * s.row + s.plane.val

/-- A TICK counts the position up by one, around `4 * NROWS`. -/
theorem position_takeTick {s : State} (hrun : s.running = true) (hrow : s.row < s.cfg.nrows) :
    (takeTick s).position = (s.position + 1) % (4 * s.cfg.nrows) := by
  have hplane := s.plane.isLt
  rw [takeTick_of_running hrun, State.position, State.position, tickBody_row, tickBody_plane, nextPlane_val, nextRow_eq]
  by_cases hwrap : s.plane = 3
  · have hval : s.plane.val = 3 := congrArg Fin.val hwrap
    rw [if_pos hwrap, hval]
    by_cases hlast : s.cfg.nrows ≤ s.row + 1
    · have hend : 4 * s.row + 3 + 1 = 4 * s.cfg.nrows := by omega
      rw [if_pos hlast, hend, Nat.mod_self, Nat.mod_self]
    · have hinside : 4 * s.row + 3 + 1 < 4 * s.cfg.nrows := by omega
      rw [if_neg hlast, Nat.mod_eq_of_lt hinside, Nat.mod_self]
      rfl
  · have hlow : s.plane.val ≠ 3 := fun h => hwrap (Fin.ext h)
    have hinside : 4 * s.row + s.plane.val + 1 < 4 * s.cfg.nrows := by omega
    rw [if_neg hwrap, Nat.mod_eq_of_lt hinside, Nat.mod_eq_of_lt (by omega), Nat.add_assoc]

theorem takeTick_row_lt {s : State} (hrow : s.row < s.cfg.nrows) : (takeTick s).row < s.cfg.nrows := by
  cases hrun : s.running with
  | false => rwa [takeTick_of_not_running hrun]
  | true => simpa [takeTick_of_running hrun] using nextRow_lt hrow s.plane

theorem position_ticks {s : State} (hrun : s.running = true) (hrow : s.row < s.cfg.nrows) (n : Nat) :
    (ticks n s).position % (4 * s.cfg.nrows) = (s.position + n) % (4 * s.cfg.nrows) := by
  induction n generalizing s with
  | zero => rfl
  | succ n ih =>
    have htail := ih (s := takeTick s) (by simpa using hrun) (by simpa using takeTick_row_lt hrow)
    rw [takeTick_cfg, position_takeTick hrun hrow, Nat.mod_add_mod] at htail
    rw [ticks, htail, Nat.add_assoc, Nat.add_comm 1 n]

theorem position_lt {s : State} (hrow : s.row < s.cfg.nrows) : s.position < 4 * s.cfg.nrows := by
  have hplane := s.plane.isLt
  rw [State.position]
  omega

theorem row_plane_of_position_eq {s t : State} (h : t.position = s.position) : t.row = s.row ∧ t.plane = s.plane := by
  have hs := s.plane.isLt
  have ht := t.plane.isLt
  rw [State.position, State.position] at h
  exact ⟨by omega, Fin.ext (by omega)⟩

theorem ticks_row_lt {s : State} (hrow : s.row < s.cfg.nrows) (n : Nat) : (ticks n s).row < s.cfg.nrows := by
  induction n with
  | zero => exact hrow
  | succ n ih => simpa [ticks_succ] using takeTick_row_lt (s := ticks n s) (by simpa using ih)

/-! ### The events of a run of ticks (R191, R194) -/

theorem newEvents_takeTick {s : State} (hrun : s.running = true) : newEvents s (takeTick s) =
    tickEvents s.cfg s.ram (interval s.cfg s.plane) (takeTick s).front (takeTick s).row (takeTick s).plane := by
  rw [takeTick_of_running hrun]
  exact newEvents_of_append (tickBody_events s)

theorem takeTick_extends_events (s : State) : s.events <+: (takeTick s).events := by
  cases hrun : s.running with
  | false => rw [takeTick_of_not_running hrun]
  | true => exact ⟨_, by rw [takeTick_of_running hrun, tickBody_events]⟩

theorem ticks_extend_events (n : Nat) (s : State) : s.events <+: (ticks n s).events := by
  induction n with
  | zero => exact ⟨[], List.append_nil _⟩
  | succ n ih => exact ticks_succ n s ▸ ih.trans (takeTick_extends_events _)

theorem newEvents_trans {s t u : State} (hst : s.events <+: t.events) (htu : t.events <+: u.events) :
    newEvents s u = newEvents s t ++ newEvents t u := by
  obtain ⟨es, hes⟩ := hst
  obtain ⟨fs, hfs⟩ := htu
  rw [newEvents_of_append hes.symm, newEvents_of_append hfs.symm]
  exact newEvents_of_append (by rw [← hfs, ← hes, List.append_assoc])

theorem newEvents_ticks_add (m n : Nat) (s : State) :
    newEvents s (ticks (m + n) s) = newEvents s (ticks m s) ++ newEvents (ticks m s) (ticks n (ticks m s)) := by
  rw [ticks_add]
  exact newEvents_trans (ticks_extend_events m s) (ticks_extend_events n _)

theorem newEvents_self (s : State) : newEvents s s = [] := List.drop_length

/-! ### The intervals of a frame (R183, R187, R194) -/

theorem timerDurations_append (es fs : List OutEvent) :
    timerDurations (es ++ fs) = timerDurations es ++ timerDurations fs :=
  List.filterMap_append

theorem timerDurations_columnEvents (c : Config) (m : Memory) (k : Region) (row : Nat) (p : Plane) (is : List Nat) :
    timerDurations (is.flatMap (columnEvents c m k row p)) = [] := by
  rw [timerDurations, List.filterMap_eq_nil_iff]
  intro e he
  obtain ⟨i, _, hcolumn⟩ := List.mem_flatMap.mp he
  rcases List.mem_pair.mp hcolumn with rfl | rfl <;> rfl

/-- A TICK programs the timer once. -/
theorem timerDurations_tickEvents (c : Config) (m : Memory) (d : Nat) (k : Region) (row : Nat) (p : Plane) :
    timerDurations (tickEvents c m d k row p) = [d] := by
  rw [tickEvents, timerDurations_append, timerDurations_columnEvents]
  split <;> rfl

/-- The time `n` ticks program. -/
def programmedTime (n : Nat) (s : State) : Nat := (timerDurations (newEvents s (ticks n s))).sum

theorem programmedTime_add (m n : Nat) (s : State) :
    programmedTime (m + n) s = programmedTime m s + programmedTime n (ticks m s) := by
  rw [programmedTime, newEvents_ticks_add, timerDurations_append, List.sum_append, programmedTime, programmedTime]

theorem programmedTime_zero (s : State) : programmedTime 0 s = 0 := by
  rw [programmedTime, ticks, newEvents_self]
  rfl

theorem programmedTime_one {s : State} (hrun : s.running = true) : programmedTime 1 s = interval s.cfg s.plane := by
  rw [programmedTime, ticks, ticks, newEvents_takeTick hrun, timerDurations_tickEvents, List.sum_singleton]

theorem programmedTime_succ {s : State} (hrun : s.running = true) (n : Nat) :
    programmedTime (n + 1) s = interval s.cfg s.plane + programmedTime n (takeTick s) := by
  rw [Nat.add_comm n 1, programmedTime_add, programmedTime_one hrun]
  rfl

/-- Four ticks in a row program every plane once, whichever comes first. -/
theorem programmedTime_four {s : State} (hrun : s.running = true) : programmedTime 4 s = 15 * s.cfg.baseDuration := by
  have hplanes : 2 ^ s.plane.val + 2 ^ (nextPlane s.plane).val + 2 ^ (nextPlane (nextPlane s.plane)).val +
      2 ^ (nextPlane (nextPlane (nextPlane s.plane))).val = 15 := by
    generalize s.plane = p
    revert p
    decide
  rw [← hplanes]
  simp only [programmedTime_succ, programmedTime_zero, takeTick_running, takeTick_cfg, takeTick_plane, interval_eq, hrun]
  ring

theorem programmedTime_planeCycles {s : State} (hrun : s.running = true) (k : Nat) :
    programmedTime (4 * k) s = 15 * s.cfg.baseDuration * k := by
  induction k with
  | zero => rw [Nat.mul_zero, Nat.mul_zero, programmedTime_zero]
  | succ k ih =>
    have hlast := programmedTime_four (s := ticks (4 * k) s) (by simpa using hrun)
    rw [Nat.mul_succ, programmedTime_add, ih, hlast, ticks_cfg, Nat.mul_succ]

/-- Settles O54: `4 * NROWS` ticks are once around the positions, and `NROWS` times through the planes. -/
theorem frameHasFixedPeriodAndDuration : Obligations.FrameHasFixedPeriodAndDuration := by
  intro s hrun hrow
  have hlt := position_lt (s := ticks (4 * s.cfg.nrows) s) (by simpa using ticks_row_lt hrow _)
  have hround := position_ticks hrun hrow (4 * s.cfg.nrows)
  rw [ticks_cfg] at hlt
  rw [Nat.add_mod_right, Nat.mod_eq_of_lt hlt, Nat.mod_eq_of_lt (position_lt hrow)] at hround
  obtain ⟨hrow', hplane'⟩ := row_plane_of_position_eq hround
  exact ⟨hrow', hplane', programmedTime_planeCycles hrun s.cfg.nrows⟩

/-! ### Lit time (R195) -/

/-- A channel value is the sum of its planes' weights. -/
theorem sum_planeWeights (v : BitVec 4) :
    ((List.finRange 4).map fun p => if v.getLsbD p.val then 2 ^ p.val else 0).sum = v.toNat := by
  revert v
  decide

theorem litTime_eq (c : Config) (v : BitVec 4) : litTime c v = c.baseDuration * v.toNat := by
  rw [litTime, ← sum_planeWeights v, ← List.sum_map_mul_left]
  simp only [interval_eq, mul_ite, mul_zero]

/-- Settles O55. -/
theorem litTimeIsProportionalToTheValue : Obligations.LitTimeIsProportionalToTheValue := by
  refine fun c => ⟨litTime_eq c, fun hc v w hlt => ?_⟩
  rw [litTime_eq, litTime_eq]
  exact Nat.mul_lt_mul_of_pos_left hlt hc.base_pos

/-! ### The panel behind the boundary (R192, R193, R257) -/

theorem Panel.observeAll_append (pn : Panel) (es fs : List OutEvent) :
    pn.observeAll (es ++ fs) = (pn.observeAll es).observeAll fs :=
  List.foldl_append

/-- Columns are shifted in at the end, and push as many old values out. -/
theorem Panel.observeAll_columnEvents (pn : Panel) (c : Config) (m : Memory) (k : Region) (row : Nat) (p : Plane)
    (is : List Nat) :
    let shown := pn.observeAll (is.flatMap (columnEvents c m k row p))
    shown.shift = (pn.shift ++ is.map (colMask c m k row p)).drop is.length ∧
    shown.latched = pn.latched ∧ shown.lit = pn.lit ∧ shown.row = pn.row := by
  induction is generalizing pn with
  | nil => simp [Panel.observeAll]
  | cons i is ih =>
    rw [List.flatMap_cons, Panel.observeAll_append]
    obtain ⟨hshift, hlatched, hlit, hrow⟩ := ih (pn.observeAll (columnEvents c m k row p i))
    refine ⟨?_, hlatched, hlit, hrow⟩
    have hfirst : (pn.observeAll (columnEvents c m k row p i)).shift =
        (pn.shift ++ [colMask c m k row p i]).drop 1 := rfl
    rw [hshift, hfirst, ← List.drop_append_of_le_length (by simp), List.drop_drop, List.map_cons, List.length_cons,
      Nat.add_comm 1, List.append_assoc, List.singleton_append]

theorem length_slice (c : Config) (m : Memory) (k : Region) (row : Nat) (p : Plane) :
    (slice c m k row p).length = c.width := by
  rw [slice, List.length_map, List.length_range]

/-- What a TICK does to a panel with a shift register of WIDTH values: it latches them and shifts the new slice in. -/
theorem Panel.observeAll_tickEvents {pn : Panel} {c : Config} (hlen : pn.shift.length = c.width) (m : Memory) (d : Nat)
    (k : Region) (row : Nat) (p : Plane) :
    let shown := pn.observeAll (tickEvents c m d k row p)
    shown.shift = slice c m k row p ∧ shown.latched = pn.shift ∧ shown.lit = true ∧
    shown.row = if p = 1 then row else pn.row := by
  rw [tickEvents, Panel.observeAll_append]
  obtain ⟨hshift, hlatched, hlit, hrow⟩ := Panel.observeAll_columnEvents
    (pn.observeAll ([.oe false, .lat true, .clkLow] ++ (if p = 1 then [.addr row] else []) ++
      [.timer d, .oe true, .lat false])) c m k row p (List.range c.width)
  dsimp only
  rw [hshift, hlatched, hlit, hrow, List.length_range, ← slice]
  have hdrop : (pn.shift ++ slice c m k row p).drop c.width = slice c m k row p := List.drop_left' hlen
  split <;> exact ⟨hdrop, rfl, rfl, rfl⟩

theorem Panel.observeAll_takeTick {pn : Panel} {s : State} (hrun : s.running = true)
    (hlen : pn.shift.length = s.cfg.width) :
    let t := takeTick s
    let shown := pn.observeAll (newEvents s t)
    shown.shift = slice s.cfg s.ram t.front t.row t.plane ∧ shown.latched = pn.shift ∧ shown.lit = true ∧
    shown.row = if t.plane = 1 then t.row else pn.row := by
  dsimp only
  rw [newEvents_takeTick hrun]
  exact Panel.observeAll_tickEvents hlen _ _ _ _ _

/-- The panel follows the scheduler: its shift register holds the slice shifted out last, and it is addressed at the row,
but for the tick that begins a row, whose ADDR comes with the next (R186). -/
structure Panel.Follows (pn : Panel) (s : State) : Prop where
  shift_eq : pn.shift = slice s.cfg s.ram s.front s.row s.plane
  row_eq : s.plane ≠ 0 → pn.row = s.row

theorem Panel.Follows.length_shift {pn : Panel} {s : State} (h : pn.Follows s) : pn.shift.length = s.cfg.width := by
  rw [h.shift_eq, length_slice]

/-- The TICK from plane 3 begins a row, and brings any panel with a shift register of WIDTH values to follow. -/
theorem Panel.follows_of_plane_three {pn : Panel} {s : State} (hrun : s.running = true) (hplane : s.plane = 3)
    (hlen : pn.shift.length = s.cfg.width) : (pn.observeAll (newEvents s (takeTick s))).Follows (takeTick s) where
  shift_eq := by
    rw [takeTick_cfg, takeTick_ram]
    exact (Panel.observeAll_takeTick hrun hlen).1
  row_eq h := absurd (by rw [takeTick_plane hrun, nextPlane_eq_zero_iff.mpr hplane]) h

/-- A panel that follows is addressed, after a TICK, at the row the TICK started from: ADDR comes with the second tick of
a row, and the first leaves the panel at the row before. -/
theorem Panel.Follows.row_takeTick {pn : Panel} {s : State} (h : pn.Follows s) (hrun : s.running = true) :
    (pn.observeAll (newEvents s (takeTick s))).row = s.row := by
  obtain ⟨_, _, _, hrow⟩ := Panel.observeAll_takeTick hrun h.length_shift
  rw [hrow]
  split
  · next hone => exact takeTick_row_of_ne_zero hrun (by rw [hone]; decide)
  · next hone => exact h.row_eq fun hzero => hone (by rw [takeTick_plane hrun, nextPlane_eq_one_iff.mpr hzero])

theorem Panel.Follows.after_takeTick {pn : Panel} {s : State} (h : pn.Follows s) (hrun : s.running = true) :
    (pn.observeAll (newEvents s (takeTick s))).Follows (takeTick s) where
  shift_eq := by
    rw [takeTick_cfg, takeTick_ram]
    exact (Panel.observeAll_takeTick hrun h.length_shift).1
  row_eq hplane := (h.row_takeTick hrun).trans (takeTick_row_of_ne_zero hrun hplane).symm

theorem Panel.observeAll_ticks_succ (pn : Panel) (n : Nat) (s : State) :
    pn.observeAll (newEvents s (ticks (n + 1) s)) =
      (pn.observeAll (newEvents s (ticks n s))).observeAll (newEvents (ticks n s) (takeTick (ticks n s))) := by
  rw [newEvents_ticks_add, Panel.observeAll_append]
  rfl

/-- From plane 3 the panel follows after every tick. -/
theorem Panel.follows_ticks {pn : Panel} {s : State} (hrun : s.running = true) (hplane : s.plane = 3)
    (hlen : pn.shift.length = s.cfg.width) (n : Nat) :
    (pn.observeAll (newEvents s (ticks (n + 1) s))).Follows (ticks (n + 1) s) := by
  induction n with
  | zero => exact Panel.follows_of_plane_three hrun hplane hlen
  | succ n ih =>
    rw [Panel.observeAll_ticks_succ, ticks_succ (n + 1)]
    exact ih.after_takeTick (by simpa using hrun)

/-- Settles O56: the panel follows after `n + 1` ticks, and the next TICK latches what it had shifted in. -/
theorem panelShowsTheFrontFromTheSecondTick : Obligations.PanelShowsTheFrontFromTheSecondTick := by
  intro s pn n hrun _ hplane hlen s1 s2 shown
  have hbefore := Panel.follows_ticks hrun hplane hlen n
  have hafter : shown.Follows s2 := Panel.follows_ticks hrun hplane hlen (n + 1)
  have hrun1 : s1.running = true := (ticks_running (n + 1) s).trans hrun
  obtain ⟨_, hlatched, hlit, _⟩ := Panel.observeAll_takeTick hrun1 hbefore.length_shift
  have hrow := hbefore.row_takeTick hrun1
  rw [← Panel.observeAll_ticks_succ] at hlatched hlit hrow
  refine ⟨hlit, hrow, hlatched.trans ?latched, ?shift⟩
  case latched => rw [hbefore.shift_eq, ticks_cfg, ticks_ram]
  case shift => rw [hafter.shift_eq, ticks_cfg, ticks_ram]

end Sys2Proof.Machine

/-! The family of spec/60_exceptions.md: the three conditions (R221 to R223), and a preempted command that goes on
(R229, R230). -/

namespace Sys2Proof.Machine

/-! ### The three conditions (R221 to R223) -/

/-- Settles O32: every memory command is behind the check of `needsRam`. -/
theorem memoryCommandsRefusedWithoutRam : Obligations.MemoryCommandsRefusedWithoutRam := fun _ herr =>
  ⟨fun _ _ _ _ => needsRam_of_failed herr _, fun _ => needsRam_of_failed herr _, fun _ => needsRam_of_failed herr _,
    fun _ => needsRam_of_failed herr _, fun _ _ => needsRam_of_failed herr _⟩

theorem exec_wrpix_of_outOfRange {s : State} {rot : Rotation} {x y : Int} (herr : s.errAlloc = false)
    (hout : xform s.cfg rot x y = none) (color : Colour16) : exec (.wrpix rot x y color) s = .next s := by
  rw [exec, execWrpix, needsRam_of_ok herr, hout]
  exact raise_eq .outOfRange s

/-- Settles O23: the bounds are those outside which `xform` answers no pixel. -/
theorem wrpixOutOfRangeIsASilentNoOp : Obligations.WrpixOutOfRangeIsASilentNoOp := by
  intro s rot x y color herr hout
  obtain ⟨hbounds, _⟩ := xformMapsTheVisibleAreaOntoThePanel s.cfg rot
  refine exec_wrpix_of_outOfRange herr ((hbounds x y).1.mpr ?_) color
  split at hout
  · next hrot => rw [if_pos hrot, if_pos hrot]; tauto
  · next hrot => rw [if_neg hrot, if_neg hrot]; tauto

/-- Settles O33: without a second buffer SWAP ends with its condition. -/
theorem swapOnASingleBufferIsANoOp : Obligations.SwapOnASingleBufferIsANoOp := by
  intro s copy herr hdbuf
  rw [exec, execSwap, needsRam_of_ok herr, if_neg (by simp [hdbuf])]
  exact raise_eq .noOpSwap s

/-! ### A preempted command goes on (R229, R230) -/

/-- The final RAM of a command in progress is a matter of the host phase and the RAM alone. -/
theorem State.settledRam_congr {s t : State} (hhost : t.host = s.host) (hram : t.ram = s.ram) :
    t.settledRam = s.settledRam := by
  rw [State.settledRam, State.settledRam, hhost, hram]

theorem State.settledRam_of_busy {s : State} {ms : List Micro} (hbusy : s.host = .busy ms) :
    s.settledRam = runAll ms s.ram := by
  simp only [State.settledRam, hbusy]

/-- A step with a preempted command in progress is the tick at the head of the inputs, or the host's turn at what is
left of the command. -/
theorem step_busy_cases {s t : State} {ms : List Micro} (hbusy : s.host = .busy ms) (hstep : step s = .next t) :
    (∃ rest, s.inputs = .tick 0 :: rest ∧ t = takeTick (s.withInputs rest)) ∨
    ((∀ rest, s.inputs ≠ .tick 0 :: rest) ∧ t = runHost ms (s.withHost .idle)) := by
  by_cases hhead : s.inputs.head? = some (.tick 0)
  · obtain ⟨rest, hin⟩ := List.head?_eq_some_iff.mp hhead
    rw [step_of_queuedTick (by simp [tickDue_of_busy hbusy, hhead]) hin] at hstep
    cases hstep
    exact .inl ⟨rest, hin, rfl⟩
  · rw [step_of_busy hbusy hhead] at hstep
    cases hstep
    exact .inr ⟨fun rest hin => hhead (by simp [hin]), rfl⟩

/-- A tick inside a list of micro-operations: those before it are done, and those after it are left. -/
theorem runHost_cut_by_tick {n : Nat} {rest : List Input} {ms : List Micro} {s : State}
    (hin : s.inputs = .tick n :: rest) (hn : n < microCount ms) :
    (runHost ms s).inputs = .tick 0 :: rest ∧ ∃ left, (runHost ms s).host = .busy left ∧
      (left, (runHost ms s).ram) = runSome n ms s.ram ∧ microCount left + n = microCount ms := by
  rw [runHost_of_tick hin hn]
  refine ⟨rfl, _, rfl, rfl, ?_⟩
  rw [microCount_runSome]
  omega

/-- Settles O39: a tick keeps the host phase and the RAM, and the host's turn ends in the RAM of what is left. -/
theorem preemptedCommandKeepsItsFinalRam : Obligations.PreemptedCommandKeepsItsFinalRam := by
  intro s t ms hbusy hstep
  have houtside : s.Inv → ∀ a, ¬inRegion s.cfg s.back a → t.readByte a = s.readByte a :=
    fun hinv _ ha => hinv.step_readByte_outside hstep ha
  rcases step_busy_cases hbusy hstep with ⟨rest, hin, rfl⟩ | ⟨hlater, rfl⟩
  case inl =>
    refine ⟨State.settledRam_congr (by simp) (by simp), by simp, fun rest' hin' => ?_,
      fun hlater => absurd hin (hlater rest), houtside⟩
    obtain rfl : rest = rest' := by simpa [hin] using hin'
    simp [hbusy]
  case inr =>
    refine ⟨?settled, by simp, fun rest hin => absurd hin (hlater rest),
      fun _ => ⟨runHost_frame ms (s.withHost .idle), fun hfree => ?uncut, fun n rest hin hn => ?cut⟩, houtside⟩
    case settled => rw [State.settledRam_of_busy hbusy, runHost_settledRam ms (by simp), State.withHost_ram]
    case uncut =>
      rw [runHost_of_uninterrupted (s := s.withHost .idle) hfree]
      exact ⟨rfl, rfl, rfl⟩
    case cut => exact runHost_cut_by_tick (s := s.withHost .idle) hin hn

end Sys2Proof.Machine

/-! The family of spec/70_reset_and_hazards.md: the order of a TICK's events (R258), and the wait of a SWAP before BEGIN
(R256) and after it (R266). -/

namespace Sys2Proof.Machine

/-! ### The order of a TICK's events (R258) -/

/-- With the latch dropped and the clock lowered, each column drives its colours and then pulses. -/
theorem orderOk_columnEvents (lit : Bool) (c : Config) (m : Memory) (k : Region) (row : Nat) (p : Plane)
    (is : List Nat) : orderOk lit false true false (is.flatMap (columnEvents c m k row p)) = true := by
  induction is with
  | nil => rfl
  | cons i is ih => simpa [columnEvents, orderOk] using ih

/-- A TICK's events are in order from any lines: its first three set the lines the monitor follows. -/
theorem orderOk_tickEvents (lit latch low : Bool) (c : Config) (m : Memory) (d : Nat) (k : Region) (row : Nat)
    (p : Plane) : orderOk lit latch low false (tickEvents c m d k row p) = true := by
  have hcolumns := orderOk_columnEvents true c m k row p (List.range c.width)
  by_cases hp : p = 1 <;> simpa [tickEvents, hp, orderOk] using hcolumns

/-- Settles O49: before BEGIN a tick event adds no output event, and after it those of `tickEvents`. -/
theorem tickKeepsTheEventOrder : Obligations.TickKeepsTheEventOrder := by
  intro s t lit latch low htick
  obtain rfl : takeTick s = t := by simpa [exec, execTick] using htick
  cases hrun : s.running with
  | false =>
    rw [takeTick_of_not_running hrun, newEvents_self]
    rfl
  | true =>
    rw [newEvents_takeTick hrun]
    exact orderOk_tickEvents lit latch low _ _ _ _ _ _

/-! ### A tick event does not look at the input ports (R191) -/

theorem State.honourSwap_withInputs (s : State) (l : List Input) :
    (s.withInputs l).honourSwap = s.honourSwap.withInputs l := by
  simp only [State.honourSwap, apply_ite (fun t : State => t.withInputs l)]
  rfl

theorem advance_withInputs (s : State) (l : List Input) : advance (s.withInputs l) = (advance s).withInputs l := by
  simp only [advance, apply_ite (fun t : State => t.withInputs l), ← State.honourSwap_withInputs]
  rfl

theorem updateRowAddress_withInputs (s : State) (l : List Input) :
    updateRowAddress (s.withInputs l) = (updateRowAddress s).withInputs l := by
  simp only [updateRowAddress, apply_ite (fun t : State => t.withInputs l)]
  rfl

theorem beforeShiftOut_withInputs (s : State) (l : List Input) :
    beforeShiftOut (s.withInputs l) = (beforeShiftOut s).withInputs l := by
  have hblank : blankAndLatch (s.withInputs l) = (blankAndLatch s).withInputs l := rfl
  rw [beforeShiftOut, hblank, advance_withInputs, updateRowAddress_withInputs]
  rfl

theorem shiftOut_withInputs (s : State) (l : List Input) : shiftOut (s.withInputs l) = (shiftOut s).withInputs l :=
  List.foldl_hom (fun t : State => t.withInputs l) fun _ _ => rfl

theorem takeTick_withInputs (s : State) (l : List Input) : takeTick (s.withInputs l) = (takeTick s).withInputs l := by
  cases hrun : s.running with
  | false => rw [takeTick_of_not_running hrun, takeTick_of_not_running (s := s.withInputs l) hrun]
  | true =>
    rw [takeTick_of_running hrun, takeTick_of_running (s := s.withInputs l) hrun, tickBody_eq_shiftOut,
      tickBody_eq_shiftOut, beforeShiftOut_withInputs, shiftOut_withInputs]

theorem ticks_withInputs (n : Nat) (s : State) (l : List Input) :
    ticks n (s.withInputs l) = (ticks n s).withInputs l := by
  induction n with
  | zero => rfl
  | succ n ih => rw [ticks_succ, ih, takeTick_withInputs, ticks_succ]

/-! ### The wait of a SWAP (R145, R237) -/

@[simp] theorem ticks_host (n : Nat) (s : State) : (ticks n s).host = s.host := by
  induction n with
  | zero => rfl
  | succ n ih => rw [ticks_succ, takeTick_host, ih]

/-- The wait is a run of ticks for as long as the flag stands; each takes the tick event at the head of the inputs, if
one is there. -/
theorem run_of_waiting {s : State} {copy : Bool} {n : Nat} (hwait : s.host = .waiting copy)
    (hpend : ∀ k < n, (ticks k s).swapPending = true) :
    run n s = .next ((ticks n s).withInputs (afterTick^[n] s.inputs)) := by
  induction n generalizing s with
  | zero => rfl
  | succ n ih =>
    have hfirst : step s = .next ((takeTick s).withInputs (afterTick s.inputs)) := by
      rw [step_of_waiting hwait (hpend 0 n.succ_pos), takeTick_withInputs]
    have hrest := ih (s := (takeTick s).withInputs (afterTick s.inputs)) (by simpa using hwait) fun k hk => by
      rw [ticks_withInputs]
      exact hpend (k + 1) (Nat.succ_lt_succ hk)
    rw [run_succ n hfirst, hrest, ticks_withInputs]
    rfl

/-- What the wait takes off the inputs is tick events. -/
theorem afterTick_iterate_takes_ticks (n : Nat) (l : List Input) :
    ∃ taken, l = taken ++ afterTick^[n] l ∧ ∀ x ∈ taken, ∃ j, x = .tick j := by
  induction n generalizing l with
  | zero => exact ⟨[], rfl, by simp⟩
  | succ n ih =>
    obtain ⟨taken, hsplit, hticks⟩ := ih (afterTick l)
    rw [Function.iterate_succ_apply]
    match l with
    | .tick j :: rest => exact ⟨.tick j :: taken, congrArg (Input.tick j :: ·) hsplit, by simpa using hticks⟩
    | .command _ :: _ | [] => exact ⟨taken, hsplit, hticks⟩

theorem ticks_of_not_running {s : State} (h : s.running = false) (n : Nat) : ticks n s = s := by
  induction n with
  | zero => rfl
  | succ n ih => rw [ticks_succ, ih, takeTick_of_not_running h]

/-- Settles O37: before BEGIN the ticks of the wait leave the flag set. -/
theorem swapBeforeBeginNeverEnds : Obligations.SwapBeforeBeginNeverEnds := by
  intro s copy k hrun hwait hpend
  have hsame := ticks_of_not_running hrun
  refine ⟨_, run_of_waiting hwait fun j _ => (hsame j).symm ▸ hpend, ?_⟩
  rw [hsame]
  exact ⟨hpend, hwait, hrun, rfl, rfl⟩

/-! ### The way to the frame boundary (R185, R266) -/

theorem atFrameBoundary_iff_position {s : State} (hrow : s.row < s.cfg.nrows) :
    s.plane = 3 ∧ s.cfg.nrows ≤ s.row + 1 ↔ s.position + 1 = 4 * s.cfg.nrows := by
  have hplane := s.plane.isLt
  rw [State.position, Fin.ext_iff, show ((3 : Plane) : Nat) = 3 from rfl]
  omega

theorem position_ticks_of_lt {s : State} {n : Nat} (hrun : s.running = true) (hrow : s.row < s.cfg.nrows)
    (hn : s.position + n < 4 * s.cfg.nrows) : (ticks n s).position = s.position + n := by
  have hmod := position_ticks hrun hrow n
  have hlt : (ticks n s).position < 4 * s.cfg.nrows := by
    simpa using position_lt (s := ticks n s) (by simpa using ticks_row_lt hrow n)
  rwa [Nat.mod_eq_of_lt hn, Nat.mod_eq_of_lt hlt] at hmod

theorem ticks_atFrameBoundary_iff {s : State} {n : Nat} (hrun : s.running = true) (hrow : s.row < s.cfg.nrows)
    (hn : s.position + n < 4 * s.cfg.nrows) :
    (ticks n s).plane = 3 ∧ (ticks n s).cfg.nrows ≤ (ticks n s).row + 1 ↔ s.position + n + 1 = 4 * s.cfg.nrows := by
  rw [atFrameBoundary_iff_position (by simpa using ticks_row_lt hrow n), position_ticks_of_lt hrun hrow hn, ticks_cfg]

/-- Short of the boundary no swap takes place. -/
theorem ticks_before_boundary {s : State} {n : Nat} (hrun : s.running = true) (hrow : s.row < s.cfg.nrows)
    (hn : s.position + n < 4 * s.cfg.nrows) :
    (ticks n s).front = s.front ∧ (ticks n s).swapPending = s.swapPending := by
  induction n with
  | zero => exact ⟨rfl, rfl⟩
  | succ n ih =>
    obtain ⟨hfront, hpend⟩ := ih (by omega)
    have hno : ¬(ticks n s).SwapsNow := fun ⟨hboundary, _⟩ => by
      rw [ticks_atFrameBoundary_iff hrun hrow (by omega)] at hboundary
      omega
    obtain ⟨hfront', hpend'⟩ := tickBody_of_noSwap hno
    rw [ticks_succ, takeTick_of_running (by simpa using hrun)]
    exact ⟨hfront'.trans hfront, hpend'.trans hpend⟩

/-- The tick that reaches the boundary honours the pending swap and begins the frame at (0, 0). -/
theorem ticks_to_boundary {s : State} {n : Nat} (hrun : s.running = true) (hrow : s.row < s.cfg.nrows)
    (hpend : s.swapPending = true) (hn : s.position + (n + 1) = 4 * s.cfg.nrows) :
    (ticks (n + 1) s).swapPending = false ∧ (ticks (n + 1) s).front = 1 - s.front ∧
      (ticks (n + 1) s).row = 0 ∧ (ticks (n + 1) s).plane = 0 := by
  obtain ⟨hfront, hkept⟩ := ticks_before_boundary (n := n) hrun hrow (by omega)
  have hboundary : (ticks n s).plane = 3 ∧ (ticks n s).cfg.nrows ≤ (ticks n s).row + 1 :=
    (ticks_atFrameBoundary_iff hrun hrow (by omega)).mpr hn
  obtain ⟨hfront', hcleared⟩ := tickBody_of_swap ⟨hboundary, hkept.trans hpend⟩
  obtain ⟨hrow', hplane'⟩ := advance_to_origin_iff.mpr hboundary
  rw [ticks_succ, takeTick_of_running (by simpa using hrun)]
  exact ⟨hcleared, hfront ▸ hfront', (tickBody_row _).trans hrow', (tickBody_plane _).trans hplane'⟩

/-- Settles O36: the steps of the wait are the ticks up to the frame boundary, and `n` is the way to it. -/
theorem swapWaitIsBounded : Obligations.SwapWaitIsBounded := by
  intro s copy n hinv hrun hwait hpend hn
  have hrow := hinv.row_lt
  have hplane := s.plane.isLt
  have hend : s.position + n = 4 * s.cfg.nrows := by
    rw [State.position]
    omega
  have hbefore (k : Nat) (hk : k < n) : (ticks k s).front = s.front ∧ (ticks k s).swapPending = true :=
    hpend ▸ ticks_before_boundary hrun hrow (by omega)
  have hwaits (k : Nat) (hk : k ≤ n) := run_of_waiting hwait fun j hj => (hbefore j (hj.trans_le hk)).2
  have hhost (k : Nat) : (ticks k s).host = .waiting copy := (ticks_host k s).trans hwait
  refine ⟨by omega, by omega, fun k hk => ?before, ?ends⟩
  case before =>
    obtain ⟨hfront, hset⟩ := hbefore k hk
    exact ⟨_, hwaits k hk.le, hset, hfront, hhost k, ticks_ram k s, afterTick_iterate_takes_ticks k s.inputs⟩
  case ends =>
    obtain ⟨m, rfl⟩ : ∃ m, n = m + 1 := ⟨n - 1, by omega⟩
    obtain ⟨hcleared, hfront, hrow', hplane'⟩ := ticks_to_boundary hrun hrow hpend hend
    exact ⟨_, hwaits _ le_rfl, hcleared, hfront, hrow', hplane', hhost _, ticks_ram _ s,
      afterTick_iterate_takes_ticks _ s.inputs⟩

end Sys2Proof.Machine
